-- ==== Sys2Proof/Word.lean ====
section
/-! DEFINITION. The words of the I2S stereo mixing engine (spec/00_scope.md R10, R13): the widths the spec treats as
bits. Arithmetic between them is done on `Int` or `Nat` and narrowed where a rule says so. -/

namespace Sys2Proof

/-- A 32-bit register, operand, command or frame word (R10: u32; read as s32 through `BitVec.toInt`). -/
abbrev Word := BitVec 32

/-- One byte of sample memory (R80). -/
abbrev Byte := BitVec 8

/-- An int16 sample as its 16-bit two's-complement pattern (R10). -/
abbrev Sample := BitVec 16

/-- A volume in unsigned Q16.16, 17 bits; 1.0 is 0x1_0000 (R13, R47, R54). -/
abbrev Vol := BitVec 17

/-- 1.0 in Q16.16 (R13). -/
abbrev Vol.one : Vol := 0x10000#17

end Sys2Proof
end

