-- ==== Sys2Proof/Syntax.lean ====
section
/-! DEFINITION. The commands of the block: one constructor per row of spec/opcode_table.json (spec/30_encoding.md R105).
A slot command carries the 3-bit SLOT field of its word (R102); every other operand is read from the latched copies of
ARG0 and ARG1 (R104), so it is no part of the command word. -/

namespace Sys2Proof

/-- A command of the opcode map R105. -/
inductive Instr where
  | nop
  | start
  | stop
  | tick
  | clearAll
  | setMasterVol
  | setRateMode
  | bind (slot : BitVec 3)
  | unbind (slot : BitVec 3)
  | setVol (slot : BitVec 3)
  | setLoop (slot : BitVec 3)
  | pause (slot : BitVec 3)
  | unpause (slot : BitVec 3)
  | setDepop (slot : BitVec 3)
  | setDownsample (slot : BitVec 3)
  | seekStart (slot : BitVec 3)
  | fetch (slot : BitVec 3)
  | skip (slot : BitVec 3)
  | setRate (slot : BitVec 3)
  deriving DecidableEq, Repr

/-- The SLOT operand of a slot command; none for an engine command (R101). -/
def Instr.slotField : Instr → Option (BitVec 3)
  | .nop | .start | .stop | .tick | .clearAll | .setMasterVol | .setRateMode => none
  | .bind n | .unbind n | .setVol n | .setLoop n | .pause n | .unpause n | .setDepop n | .setDownsample n
  | .seekStart n | .fetch n | .skip n | .setRate n => some n

end Sys2Proof
end

