-- ==== Sys2Proof/WellFormed.lean ====
section
/-! DEFINITION. Which commands name something that exists: the one operand a command word holds is SLOT, and its values
5, 6 and 7 name no slot (spec/30_encoding.md R102). An ill-formed command still has an outcome: the error BAD_SLOT. -/

namespace Sys2Proof

/-- The slot number names one of the five slots (R102). -/
def slotExists (n : BitVec 3) : Bool := decide (n.toNat < 5)

/-- A command is well formed when its SLOT field, if it has one, names a slot (R102). -/
def Instr.wellFormed (i : Instr) : Bool :=
  match i.slotField with
  | none => true
  | some n => slotExists n

end Sys2Proof
end

