-- ==== Sys2Proof/Decode.lean ====
section
/-! DEFINITION. Decoding a command word and encoding a command (spec/30_encoding.md R100 to R108). Decoding is total on
the 2^32 words and refuses by name: an opcode that holds no command, then nonzero reserved bits, in the order of
spec/60_exceptions.md R272. A slot command's SLOT is free in its match (R106): the values 5 to 7 decode, and the command
itself raises BAD_SLOT. -/

namespace Sys2Proof

/-- Why a word matches no row of the opcode map (R106, R107). -/
inductive DecodeError where
  /-- OPC holds no command (R107). -/
  | illegalOpcode
  /-- CW[31:11] is nonzero, or SLOT is nonzero in an engine command (R102, R103). -/
  | reserved
  deriving DecidableEq, Repr

/-- OPC = CW[7:0] (R100). -/
def opcOf (cw : Word) : BitVec 8 := cw.extractLsb' 0 8

/-- SLOT = CW[10:8] (R100). -/
def slotOf (cw : Word) : BitVec 3 := cw.extractLsb' 8 3

/-- RSV = CW[31:11] (R100). -/
def rsvOf (cw : Word) : BitVec 21 := cw.extractLsb' 11 21

/-- The opcode map R105: the command an OPC selects, with the given SLOT field; none where OPC holds no command. -/
def commandOf (opc : BitVec 8) (n : BitVec 3) : Option Instr :=
  match opc.toNat with
  | 0x00 => some .nop
  | 0x01 => some .start
  | 0x02 => some .stop
  | 0x03 => some .tick
  | 0x04 => some .clearAll
  | 0x05 => some .setMasterVol
  | 0x06 => some .setRateMode
  | 0x10 => some (.bind n)
  | 0x11 => some (.unbind n)
  | 0x12 => some (.setVol n)
  | 0x13 => some (.setLoop n)
  | 0x14 => some (.pause n)
  | 0x15 => some (.unpause n)
  | 0x16 => some (.setDepop n)
  | 0x17 => some (.setDownsample n)
  | 0x18 => some (.seekStart n)
  | 0x19 => some (.fetch n)
  | 0x1A => some (.skip n)
  | 0x20 => some (.setRate n)
  | _ => none

/-- Decoding one command word: the opcode first, then the reserved fields (R106, R272). -/
def decode (cw : Word) : Except DecodeError Instr :=
  match commandOf (opcOf cw) (slotOf cw) with
  | none => .error .illegalOpcode
  | some i =>
    if rsvOf cw ≠ 0 then .error .reserved
    else if i.slotField = none ∧ slotOf cw ≠ 0 then .error .reserved
    else .ok i

/-- The opcode of a command (R105). -/
def opcodeOf : Instr → BitVec 8
  | .nop => 0x00
  | .start => 0x01
  | .stop => 0x02
  | .tick => 0x03
  | .clearAll => 0x04
  | .setMasterVol => 0x05
  | .setRateMode => 0x06
  | .bind _ => 0x10
  | .unbind _ => 0x11
  | .setVol _ => 0x12
  | .setLoop _ => 0x13
  | .pause _ => 0x14
  | .unpause _ => 0x15
  | .setDepop _ => 0x16
  | .setDownsample _ => 0x17
  | .seekStart _ => 0x18
  | .fetch _ => 0x19
  | .skip _ => 0x1A
  | .setRate _ => 0x20

/-- The command word of a command: RSV = 0, SLOT, OPC from the most significant bit down (R100). -/
def encode (i : Instr) : Word := 0#21 ++ i.slotField.getD 0#3 ++ opcodeOf i

/-- The instruction the decoder reads from a command whose bits are `w`, numbered as spec/opcode_table.json numbers them:
every command is one 32-bit word (R108), its bits above `nbits` zero. -/
def decodeTableWord (nbits w : Nat) : Option Instr :=
  if nbits ≤ 32 ∧ w < 2 ^ nbits then
    match decode (BitVec.ofNat 32 w) with
    | .ok i => some i
    | .error _ => none
  else none

end Sys2Proof
end

