-- ==== Sys2Proof/Config.lean ====
section
/-! DEFINITION. What an implementation and its platform fix (spec/00_scope.md R7), and the free values: constants with no
body, for what the spec leaves open. A statement about a free value holds whatever it is. -/

namespace Sys2Proof

/-- A stretch of sample-memory addresses the platform admits reads at: `len` bytes from `base` (R82, R90). -/
structure Region where
  base : Nat
  len : Nat
  deriving DecidableEq, Repr

/-- The implementation and platform parameters of R7 and of spec/93_implementation_defined.md U6 to U10. The state carries
them and no step changes them (R8), so a statement about every state is a statement about every parameter choice. -/
structure Build where
  /-- N_FRAMES - 1: the type holds exactly the legal sizes 1 to 1024. -/
  lastFrame : Fin 1024
  /-- DEPOP_START_N. -/
  depopStartN : BitVec 16
  /-- DEPOP_END_BYTES - 1: the type holds exactly the legal values 1 to 65535. -/
  depopEndPred : Fin 65535
  /-- PRIME_STAGING: START also mixes the staging buffer. -/
  primeStaging : Bool
  /-- CLIP_LO is -32767 when true, -32768 when false. -/
  clipSym : Bool
  /-- MMIO_BASE: where the block's 16 KiB stand in the host's address space. -/
  mmioBase : Word
  /-- SAMPLE_MEM: the sample-memory addresses the platform admits reads at. -/
  readable : List Region
  /-- IRQ_LINE: the input of the host's interrupt controller the IRQ output drives. -/
  irqLine : Nat
  deriving DecidableEq, Repr

/-- N_FRAMES - 1, OPEN (R7; log entry 4): a free value, nothing constrains it but its type. -/
opaque Config.lastFrame : Fin 1024

/-- MMIO_BASE, OPEN (R7; log entry 6): a free value. -/
opaque Config.mmioBase : Word

/-- SAMPLE_MEM, OPEN (R90; log entry 7): a free value. -/
opaque Config.readable : List Region

/-- IRQ_LINE, OPEN (R278; log entry 18): a free value. -/
opaque Config.irqLine : Nat

/-- The words of the buffers that nothing has written since reset (R62, R300: "each word is a draw"; log entry 12): a free
value for each draw. -/
opaque Config.draw : Nat → Word

/-- Which of several agents that could step goes next (R9: "in any order"; log entry 1): a free value for each choice. -/
opaque Config.turn : Nat → Nat

/-- The parameters the machine of `State.reset` is built with: the OPEN ones free, the others at the spec's defaults
(R7; log entries 4 and 5). -/
def Config.build : Build where
  lastFrame := Config.lastFrame
  depopStartN := 32
  depopEndPred := 511
  primeStaging := true
  clipSym := false
  mmioBase := Config.mmioBase
  readable := Config.readable
  irqLine := Config.irqLine

end Sys2Proof
end

