-- ==== Sys2Proof/Machine/State.lean ====
section
/-! DEFINITION. The state of the block as plain data (spec/10_state.md R30), the state after reset (spec/70_reset_and_hazards.md
R300), and the reasons a step can stop. Beside the block's own state stand its surroundings, which the steps read: the build
parameters, sample memory, the host's program, and the interleaving of the agents (spec/00_scope.md R9). -/

namespace Sys2Proof.Machine

/-- The engine state STATE (R35): 0, 1, 2; the code 3 is never held. -/
inductive Mode where
  | idle
  | priming
  | streaming
  deriving DecidableEq, Repr

/-- A transmit buffer, as SEL and PTR name it (R38, R61): 0 = A, 1 = B. -/
inductive Buf where
  | a
  | b
  deriving DecidableEq, Repr

/-- RATE_MODE (R38, R66): 0 = 22050 Hz, 1 = 44100 Hz. -/
inductive RateMode where
  | hz22050
  | hz44100
  deriving DecidableEq, Repr

/-- One slot's stream channel (R50 to R58). MODE, ENDED and REM are derived, never stored. -/
structure Slot where
  bound : Bool
  paused : Bool
  loop : Bool
  dps : Bool
  dpe : Bool
  ds : Bool
  first : Bool
  base : Word
  len : Word
  pos : Word
  vol : Vol
  rate : Word
  acc : Word
  last : Sample
  cnt : Word
  deriving DecidableEq, Repr

/-- The unbound state of a slot (R60). -/
def Slot.unbound : Slot where
  bound := false
  paused := false
  loop := false
  dps := false
  dpe := false
  ds := false
  first := true
  base := 0
  len := 0
  pos := 0
  vol := Vol.one
  rate := 0
  acc := 0
  last := 0
  cnt := 0

/-- The command latch CL (R49); its full flag is STATUS.BUSY. -/
structure Latch where
  cw : Word
  a0 : Word
  a1 : Word
  deriving DecidableEq, Repr

/-- ERR (R46): code 0 is no error since reset. -/
structure ErrReg where
  code : BitVec 4
  opc : BitVec 8
  slot : BitVec 3
  deriving DecidableEq, Repr

/-- The DMA controller (R61). -/
structure Dma where
  run : Bool
  wait : Bool
  ptr : Buf
  idx : BitVec 16
  deriving DecidableEq, Repr

/-- How wide a host access is (R86). -/
inductive Width where
  | byte
  | half
  | word
  deriving DecidableEq, Repr

/-- One action of the host (R9, R307): register reads and writes at a bus address, the `wait` of the assembler notation
(R109: a read repeated until its masked value is the one asked for), and the placing of one byte of sample memory. -/
inductive HostOp where
  | read (addr : Word) (width : Width)
  | write (addr : Word) (width : Width) (data : Word)
  | poll (addr : Word) (mask : Word) (value : Word)
  | store (addr : Word) (data : Byte)
  deriving DecidableEq, Repr

/-- Whose step comes next (R9), or the platform's reset input (R301). -/
inductive Turn where
  | host
  | seq
  | dma
  | reset
  deriving DecidableEq, Repr

/-- The state: the block's own registers, latch, slots, DMA, buffers and TX output, then its surroundings. -/
structure State where
  /-- STATUS.STATE (R35). -/
  mode : Mode
  /-- STATUS.SEL, the hardware-owned buffer (R38). -/
  sel : Buf
  /-- STATUS.EVT, the buffer-consumed event (R38). -/
  evt : Bool
  /-- STATUS.BUSY, the latch's full flag (R38, R49). -/
  busy : Bool
  /-- STATUS.RATE_MODE and the RATE_MODE output (R38, R66). -/
  rateMode : RateMode
  /-- STATUS.LASTMIX (R38, R205). -/
  lastMix : BitVec 3
  /-- ARG0 (R39). -/
  arg0 : Word
  /-- ARG1 (R40). -/
  arg1 : Word
  /-- RESULT (R42). -/
  result : Word
  /-- IRQ_EN (R43). -/
  irqEn : BitVec 4
  /-- IRQ_STATUS (R45). -/
  irqStatus : BitVec 4
  /-- ERR (R46). -/
  err : ErrReg
  /-- MVOL (R47). -/
  mvol : Vol
  /-- CL.CW, CL.A0, CL.A1 (R49). -/
  latch : Latch
  /-- The five slot channels (R50). -/
  slots : Vector Slot 5
  /-- dma.RUN, dma.WAIT, dma.PTR, dma.IDX (R61). -/
  dma : Dma
  /-- BUF[A], N_FRAMES words (R62). -/
  bufA : List Word
  /-- BUF[B], N_FRAMES words (R62). -/
  bufB : List Word
  /-- STAGE, N_FRAMES words (R62). -/
  stage : List Word
  /-- TX: the words emitted to the I2S serializer, oldest first (R66, R256). -/
  tx : List Word
  /-- The build parameters, which PARAMS and DEPOP_PARAMS read back (R7, R8, R37, R44). -/
  build : Build
  /-- Sample memory: (address, byte) pairs in canonical form; an address not listed holds 0x00 (R81; log entry 8). -/
  mem : List Host.Cell
  /-- The host's remaining actions, next first (the model's own; log entry 3). -/
  host : List HostOp
  /-- What the host's register reads returned, oldest first (R109: "the value is recorded"; log entry 3). -/
  reads : List Word
  /-- The interleaving of the next steps, next first (the model's own; log entry 1). -/
  agenda : List Turn
  /-- How many free values have been drawn (the model's own; log entries 1 and 12). -/
  draws : Nat
  deriving DecidableEq, Repr

/-- Why a step can stop. -/
inductive Fault where
  /-- A command needs a sample-memory byte the platform does not admit a read at: the SEQ step has no successor and SEQ is
  stuck with BUSY = 1 (R82, R220). Raised by START, an active TICK, FETCH and SKIP at a turn the agenda gives to SEQ; with an
empty agenda the other agents go on (log entry 9). Safe: the spec gives that step no next state. -/
  | sampleReadNotAdmitted
  deriving DecidableEq, Repr

/-- Why the model gives a step no meaning. -/
inductive Refusal where
  /-- An instruction without a meaning; no arm of exec uses it. Safe. -/
  | notModelled (mnemonic : String)
  /-- A host access to the block that is not a 32-bit access at a multiple of 4: the platform's bus error, which a model
  refuses (R86). Raised by a host turn. Safe. -/
  | busError
  /-- A host write to a byte of a bound slot's data region: the host must not do it and a model gives it no step
  (R307, R315, 90_conflicts.md C8). Raised by a host turn. Safe. -/
  | racingSampleWrite
  deriving DecidableEq, Repr

/-- What a meaning answers. -/
abbrev Result := Host.Outcome State Fault Refusal

/-- A buffer of `n` words that nothing has written: the draws numbered from `d` on (R62, R300). -/
def drawnWords (d n : Nat) : List Word := (List.range n).map fun i => Config.draw (d + i)

/-- The state of R300 for a block built with `b`: every register and slot as that table gives it, the buffers drawn from
draw `d` on, and surroundings in which nothing is placed or scheduled. -/
def State.resetWith (b : Build) (d : Nat) : State where
  mode := .idle
  sel := .a
  evt := false
  busy := false
  rateMode := .hz22050
  lastMix := 0
  arg0 := 0
  arg1 := 0
  result := 0
  irqEn := 0
  irqStatus := 0
  err := { code := 0, opc := 0, slot := 0 }
  mvol := Vol.one
  latch := { cw := 0, a0 := 0, a1 := 0 }
  slots := Vector.replicate 5 Slot.unbound
  dma := { run := false, wait := false, ptr := .a, idx := 0 }
  bufA := drawnWords d (b.lastFrame.val + 1)
  bufB := drawnWords (d + (b.lastFrame.val + 1)) (b.lastFrame.val + 1)
  stage := drawnWords (d + 2 * (b.lastFrame.val + 1)) (b.lastFrame.val + 1)
  tx := []
  build := b
  mem := []
  host := []
  reads := []
  agenda := []
  draws := d + 3 * (b.lastFrame.val + 1)

/-- The machine right after reset (R300). -/
def State.reset : State := State.resetWith Config.build 0

end Sys2Proof.Machine
end

