-- ==== Sys2Proof/Machine/Ops.lean ====
section
/-! DEFINITION. The named operations the meanings are built from: the arithmetic primitives of spec/00_scope.md R12, sample
memory, the slot and buffer accessors, the interrupt causes, completion (spec/43_engine.md R222), and the one operation that
takes a command error (spec/60_exceptions.md R275). -/

namespace Sys2Proof.Machine

/-- The quotient of `a` by `b` rounded toward zero (R12). -/
def trunc0 (a b : Int) : Int := a.tdiv b

/-- `v` held within `lo` and `hi` (R12). -/
def clamp (v lo hi : Int) : Int := if v < lo then lo else if hi < v then hi else v

/-- min(v, 2^32 - 1) (R12). -/
def satU32 (v : Nat) : Word := BitVec.ofNat 32 (min v 0xFFFFFFFF)

/-! ## Parameters read from the build (R7) -/

/-- N_FRAMES. -/
def nFrames (b : Build) : Nat := b.lastFrame.val + 1

/-- DEPOP_END_BYTES. -/
def depopEndBytes (b : Build) : Nat := b.depopEndPred.val + 1

/-- CLIP_LO. -/
def clipLo (b : Build) : Int := if b.clipSym then -32767 else -32768

/-- CLIP_HI. -/
def clipHi : Int := 32767

/-! ## Sample memory (R80 to R83) -/

/-- What an address that no pair lists holds. -/
def unlistedByte : Byte := 0x00

/-- The byte the pairs hold at an address. -/
def cellAt : List Host.Cell → Nat → Byte
  | [], _ => unlistedByte
  | (a, v) :: rest, x => if a = x then v else cellAt rest x

/-- The pairs with the address's entry removed. -/
def dropCell : List Host.Cell → Nat → List Host.Cell
  | [], _ => []
  | (a, v) :: rest, x => if a = x then rest else (a, v) :: dropCell rest x

/-- The pairs with an entry put in its place among rising addresses. -/
def insertCell : List Host.Cell → Nat → Byte → List Host.Cell
  | [], x, w => [(x, w)]
  | (a, v) :: rest, x, w =>
    if x < a then (x, w) :: (a, v) :: rest
    else if a = x then (x, w) :: rest
    else (a, v) :: insertCell rest x w

/-- Writing one byte, in canonical form: writing what an unlisted address holds removes the entry. -/
def putCell (m : List Host.Cell) (x : Nat) (w : Byte) : List Host.Cell :=
  if w = unlistedByte then dropCell m x else insertCell m x w

/-- The canonical form: addresses of the 32-bit space strictly rising from `lo` on, and no entry equal to what an unlisted
address holds. -/
def memoryWfFrom : Nat → List Host.Cell → Bool
  | _, [] => true
  | lo, (a, v) :: rest =>
    decide (lo ≤ a) && decide (a < 2 ^ 32) && decide (v ≠ unlistedByte) && memoryWfFrom (a + 1) rest

/-- The canonical form of sample memory. -/
def Memory.wf (m : List Host.Cell) : Bool := memoryWfFrom 0 m

/-- The platform admits a read at the address (R82, R90): it lies in the 32-bit space and in a readable region. -/
def admitted (b : Build) (x : Nat) : Bool :=
  decide (x < 2 ^ 32) && b.readable.any fun r => decide (r.base ≤ x) && decide (x < r.base + r.len)

/-- MemRead(addr, 1) (R15, R82): the byte at the address, or none where the platform does not admit the read and the SEQ
step that needs it has no successor. -/
def memRead (b : Build) (m : List Host.Cell) (x : Nat) : Option Byte :=
  if admitted b x then some (cellAt m x) else none

/-! ## Slots and buffers (R14) -/

/-- slot[s]. -/
def State.slot (s : State) (i : Fin 5) : Slot := s.slots[i.val]

/-- slot[s] <- c. -/
def State.setSlot (s : State) (i : Fin 5) (c : Slot) : State := { s with slots := s.slots.set i.val c i.isLt }

/-- The other transmit buffer: 1 - b. -/
def Buf.other : Buf → Buf
  | .a => .b
  | .b => .a

/-- The words of BUF[b]. -/
def State.txBuf (s : State) : Buf → List Word
  | .a => s.bufA
  | .b => s.bufB

/-- BUF[b] <- ws. -/
def State.setTxBuf (s : State) (x : Buf) (ws : List Word) : State :=
  match x with
  | .a => { s with bufA := ws }
  | .b => { s with bufB := ws }

/-- Word i of a buffer; 0 beyond its end (R62). -/
def wordAt (ws : List Word) (i : Nat) : Word := ws.getD i 0

/-! ## Interrupt causes (R45, R277) -/

/-- The causes IRQ_STATUS latches. -/
inductive Cause where
  | consumed
  | finished
  | err
  | done
  deriving DecidableEq, Repr

/-- The bit of a cause in IRQ_STATUS. -/
def Cause.mask : Cause → BitVec 4
  | .consumed => 0b0001
  | .finished => 0b0010
  | .err => 0b0100
  | .done => 0b1000

/-- A cause sets its bit, whatever IRQ_EN holds (R278). -/
def State.setCause (s : State) (c : Cause) : State := { s with irqStatus := s.irqStatus ||| c.mask }

/-! ## Completion and command errors -/

/-- Complete() (R222): the last part of every SEQ step. -/
def State.complete (s : State) : State := { s.setCause .done with busy := false }

/-- RESULT <- r, then the completion of a successful command (R42, R222). -/
def State.finish (s : State) (r : Word) : State := { s with result := r }.complete

/-- The error codes of R271. -/
inductive CmdError where
  | illegalOpcode
  | badSlot
  | reserved
  | badState
  | badArg
  | cmdOverrun
  | unbound
  deriving DecidableEq, Repr

/-- ERR.CODE of an error (R271). -/
def CmdError.code : CmdError → BitVec 4
  | .illegalOpcode => 1
  | .badSlot => 2
  | .reserved => 3
  | .badState => 4
  | .badArg => 5
  | .cmdOverrun => 6
  | .unbound => 7

/-- ERR records the error of the command word `cw`, and IRQ_STATUS.ERR is set (R46, R274, R275). -/
def State.recordError (s : State) (e : CmdError) (cw : Word) : State :=
  { s with err := { code := e.code, opc := opcOf cw, slot := slotOf cw } }.setCause .err

/-- TAKING A COMMAND ERROR, the block's one exception (R270, R275): `raise CmdError(e)` inside a SEQ step records the
latched word and completes; nothing else changes, and the block goes on. -/
def State.raiseError (s : State) (e : CmdError) : State := (s.recordError e s.latch.cw).complete

/-- A next state, or SEQ stuck where a sample read was not admitted (R82). -/
def orStuck : Option State → Result
  | some s => .next s
  | none => .fault .sampleReadNotAdmitted

/-- The slot check of a slot command (R272): BAD_SLOT for 5, 6 and 7. -/
def onSlot (n : BitVec 3) (s : State) (k : Fin 5 → Result) : Result :=
  if h : n.toNat < 5 then k ⟨n.toNat, h⟩ else .next (s.raiseError .badSlot)

/-- The slot checks of a command other than BIND and UNBIND (R272): BAD_SLOT, then UNBOUND. -/
def onBoundSlot (n : BitVec 3) (s : State) (k : Fin 5 → Slot → Result) : Result :=
  onSlot n s fun i => if (s.slot i).bound then k i (s.slot i) else .next (s.raiseError .unbound)

/-- Reset (R301): the block goes to the state of R300 with freshly drawn buffers; a latched command is discarded. The
surroundings (sample memory, the host and its record, the interleaving) are the platform's and stay. -/
def State.resetBlock (s : State) : State :=
  { State.resetWith s.build s.draws with
    mem := s.mem, host := s.host, reads := s.reads, agenda := s.agenda }

end Sys2Proof.Machine
end

