-- ==== Sys2Proof/Machine/Operands.lean ====
section
/-! DEFINITION. The operand forms of spec/30_encoding.md R104, each read from the latched copies CL.A0 and CL.A1. A form
with a legal set answers none outside it, and the command then raises BAD_ARG. An operand a command does not list is
never read. -/

namespace Sys2Proof.Machine

/-- vol: s32 signed Q16.16, clamped to 0 .. 0x1_0000 (R104, R142, R232). -/
def Latch.vol (l : Latch) : Vol := BitVec.ofInt 17 (clamp l.a0.toInt 0 0x10000)

/-- rate: s32 signed Q16.16, every value legal (R104, R181). -/
def Latch.rate (l : Latch) : Word := l.a0

/-- hz: 22050 or 44100 (R104, R233). -/
def Latch.hz (l : Latch) : Option RateMode :=
  if l.a0.toNat = 22050 then some .hz22050 else if l.a0.toNat = 44100 then some .hz44100 else none

/-- base, len: a data region that does not pass 2^32 (R104, R140). -/
def Latch.dataRegion (l : Latch) : Option (Word × Word) :=
  if l.a0.toNat + l.a1.toNat ≤ 2 ^ 32 then some (l.a0, l.a1) else none

/-- flag: bit 0, the bits above it zero (R104). -/
def Latch.flag (l : Latch) : Option Bool :=
  if l.a0.extractLsb' 1 31 = 0 then some (l.a0.getLsbD 0) else none

/-- depop: bit 0 the start enable, bit 1 the end enable, the bits above them zero (R104). -/
def Latch.depop (l : Latch) : Option (Bool × Bool) :=
  if l.a0.extractLsb' 2 30 = 0 then some (l.a0.getLsbD 0, l.a0.getLsbD 1) else none

/-- count: u32 (R104). -/
def Latch.count (l : Latch) : Nat := l.a0.toNat

/-- A command whose operand has a legal set: BAD_ARG outside it (R272), the command inside. -/
def withOperand {α : Type} (o : Option α) (s : State) (k : α → Result) : Result :=
  match o with
  | some x => k x
  | none => .next (s.raiseError .badArg)

end Sys2Proof.Machine
end

