-- ==== Sys2Proof/Machine/Flags.lean ====
section
/-! DEFINITION. The derived quantities and flag words: REM, exhausted, ENDED and MODE of a slot (spec/10_state.md R58, R59,
spec/40_sample_path.md R131), the words SFLAGS, STATUS, ERR, PARAMS and DEPOP_PARAMS as a host reads them (R37, R38, R44,
R46, R52), and the output signals IRQ and RATE_MODE (R66, R67). -/

namespace Sys2Proof.Machine

/-- REM = LEN - POS, the unread bytes of the data region (R58). -/
def Slot.rem (c : Slot) : Nat := c.len.toNat - c.pos.toNat

/-- No whole sample is left (R131). -/
def Slot.exhausted (c : Slot) : Bool := decide (c.rem < 2)

/-- ENDED = BOUND and REM = 0 and not LOOP (R59). -/
def Slot.ended (c : Slot) : Bool := c.bound && decide (c.rem = 0) && !c.loop

/-- MODE: 0 pass-through, 1 skip, 2 repeat, by the sign of RATE (R52, R59, R182). -/
def Slot.modeCode (c : Slot) : BitVec 2 := if c.rate.toInt = 0 then 0 else if 0 < c.rate.toInt then 1 else 2

/-- Rewind(s) (R133): POS and CNT to 0, every other field kept. -/
def Slot.rewind (c : Slot) : Slot := { c with pos := 0, cnt := 0 }

/-- One bit of a flag word. -/
def bit (f : Bool) : BitVec 1 := BitVec.ofBool f

/-- SFLAGS (R52). -/
def Slot.flagsWord (c : Slot) : Word :=
  0#22 ++ c.modeCode ++ bit c.first ++ bit c.ds ++ bit c.ended ++ bit c.dpe ++ bit c.dps ++ bit c.loop ++ bit c.paused
    ++ bit c.bound

/-- The code of STATE (R35). -/
def Mode.code : Mode → BitVec 2
  | .idle => 0
  | .priming => 1
  | .streaming => 2

/-- The bit of SEL and PTR (R38). -/
def Buf.bit : Buf → BitVec 1
  | .a => 0
  | .b => 1

/-- The bit of RATE_MODE (R38), which is also the RATE_MODE output signal (R66). -/
def RateMode.bit : RateMode → BitVec 1
  | .hz22050 => 0
  | .hz44100 => 1

/-- STATUS (R38). -/
def State.statusWord (s : State) : Word :=
  0#20 ++ s.dma.ptr.bit ++ s.lastMix ++ s.rateMode.bit ++ bit s.dma.wait ++ bit s.dma.run ++ bit s.busy ++ bit s.evt
    ++ s.sel.bit ++ s.mode.code

/-- ERR (R46). -/
def ErrReg.word (e : ErrReg) : Word := 0#13 ++ e.slot ++ e.opc ++ 0#4 ++ e.code

/-- PARAMS (R37): CLIP_SYM, PRIME_STAGING, NSLOTS = 5, N_FRAMES. -/
def paramsWord (b : Build) : Word :=
  0#10 ++ bit b.clipSym ++ bit b.primeStaging ++ 5#4 ++ BitVec.ofNat 16 (nFrames b)

/-- DEPOP_PARAMS (R44). -/
def depopParamsWord (b : Build) : Word := BitVec.ofNat 16 (depopEndBytes b) ++ b.depopStartN

/-- ID_VALUE (R36). -/
def idWord : Word := 0x4D580001#32

/-- IRQ (R67): a level, 1 while an enabled cause is pending. -/
def State.irq (s : State) : Bool := decide (s.irqStatus &&& s.irqEn ≠ 0)

/-- The input of the host's interrupt controller the block drives at this moment (R278). -/
def State.irqInput (s : State) : Option Nat := if s.irq then some s.build.irqLine else none

end Sys2Proof.Machine
end

