-- ==== Sys2Proof/Machine/SamplePath.lean ====
section
/-! DEFINITION. The per-slot sample path (spec/40_sample_path.md R130 to R139): reader, volume attenuator, start and end
de-pop, the raw step, and skipping. Each step answers none where it needs a byte the platform does not admit a read at
(spec/20_memory.md R82), and otherwise the sample it produced, if any (R16), with the slot after it. -/

namespace Sys2Proof.Machine

/-- What a sample step answers: none for a read not admitted, else the sample, if any, and the slot after the step. -/
abbrev Sampled := Option (Option Sample × Slot)

/-- ReadSample(s) (R83, R134): two bytes at POS, the lower address the lower byte; POS advances by 2. -/
def readSample (b : Build) (m : List Host.Cell) (c : Slot) : Option (Sample × Slot) :=
  match memRead b m (c.base.toNat + c.pos.toNat), memRead b m (c.base.toNat + c.pos.toNat + 1) with
  | some b0, some b1 => some (b1 ++ b0, { c with pos := c.pos + 2 })
  | _, _ => none

/-- Attenuate(x, V) (R136). -/
def attenuate (x : Sample) (v : Vol) : Sample :=
  if v.toNat < 0x10000 then BitVec.ofInt 16 (trunc0 (x.toInt * v.toNat) 65536) else x

/-- Start de-pop (R137): the average with LAST while CNT is below DEPOP_START_N. -/
def startDepop (b : Build) (c : Slot) (x : Sample) : Sample :=
  if c.dps ∧ c.cnt.toNat < b.depopStartN.toNat then BitVec.ofInt 16 (trunc0 (x.toInt + c.last.toInt) 2) else x

/-- End de-pop (R138): the ramp rem / DEPOP_END_BYTES, where rem counts the bytes left after this sample's were read. -/
def endDepop (b : Build) (c : Slot) (x : Sample) : Sample :=
  if c.dpe ∧ c.rem < depopEndBytes b then BitVec.ofInt 16 (trunc0 (x.toInt * c.rem) (depopEndBytes b)) else x

/-- The rewind of steps (1) and (7) (R130, R135): only a slot that is exhausted and looping rewinds. -/
def Slot.rewindIfDone (c : Slot) : Slot := if c.exhausted && c.loop then c.rewind else c

/-- Step (6) of the raw step (R135, R57): LAST and the saturating count. -/
def Slot.record (c : Slot) (x : Sample) : Slot := { c with last := x, cnt := satU32 (c.cnt.toNat + 1) }

/-- The de-pop and attenuation of steps (3) to (5) (R135), on the slot as it stands after the read. -/
def shapeSample (b : Build) (c : Slot) (x : Sample) : Sample :=
  endDepop b c (startDepop b c (attenuate x c.vol))

/-- RawStep(s) (R130, R135). -/
def rawStep (b : Build) (m : List Host.Cell) (c : Slot) : Sampled :=
  if c.rewindIfDone.exhausted then some (none, c.rewindIfDone)
  else
    match readSample b m c.rewindIfDone with
    | none => none
    | some (x, c1) => some (some (shapeSample b c1 x), (c1.record (shapeSample b c1 x)).rewindIfDone)

/-- SkipN(s, n) (R139): raw steps until n have been taken or one returns none; the count of those that returned a sample. -/
def skipN (b : Build) (m : List Host.Cell) : Nat → Slot → Option (Nat × Slot)
  | 0, c => some (0, c)
  | n + 1, c =>
    match rawStep b m c with
    | none => none
    | some (none, c1) => some (0, c1)
    | some (some _, c1) =>
      match skipN b m n c1 with
      | none => none
      | some (k, c2) => some (k + 1, c2)

end Sys2Proof.Machine
end

