-- ==== Sys2Proof/Machine/Resampler.lean ====
section
/-! DEFINITION. The linear resampler (spec/41_resampler.md R180 to R188): skip, repeat and pass-through rate steps, and the
command SET_RATE. -/

namespace Sys2Proof.Machine

/-- SkipStep(s) (R184), for RATE > 0: whole units of ACC + RATE are skipped, the fraction is kept. -/
def skipStep (b : Build) (m : List Host.Cell) (c : Slot) : Sampled :=
  match skipN b m ((c.acc.toNat + c.rate.toInt.toNat) / 0x10000)
      { c with acc := BitVec.ofNat 32 ((c.acc.toNat + c.rate.toInt.toNat) % 0x10000) } with
  | none => none
  | some (_, c1) => rawStep b m c1

/-- The accumulator of a repeat step before its test: sat_u32(ACC + q), q = -RATE (R180, R185). -/
def repeatAcc (c : Slot) : Nat := min (c.acc.toNat + (-c.rate.toInt).toNat) 0xFFFFFFFF

/-- RepeatStep(s) (R185), for RATE < 0: from 1.0 on the last sample is emitted again and nothing is read. -/
def repeatStep (b : Build) (m : List Host.Cell) (c : Slot) : Sampled :=
  if 0x10000 ≤ repeatAcc c then some (some c.last, { c with acc := BitVec.ofNat 32 (repeatAcc c - 0x10000) })
  else rawStep b m { c with acc := BitVec.ofNat 32 (repeatAcc c) }

/-- RateStep(s) (R183): the ended test, the first sample, then the mode the sign of RATE selects. -/
def rateStep (b : Build) (m : List Host.Cell) (c : Slot) : Sampled :=
  if c.ended then some (none, c)
  else if c.first then rawStep b m { c with first := false }
  else if 0 < c.rate.toInt then skipStep b m c
  else if c.rate.toInt < 0 then repeatStep b m c
  else rawStep b m c

/-- SET_RATE (R181). -/
def execSetRate (n : BitVec 3) (s : State) : Result :=
  onBoundSlot n s fun i c => .next ((s.setSlot i { c with rate := s.latch.rate, acc := 0 }).finish 0)

end Sys2Proof.Machine
end

