-- ==== Sys2Proof/Machine/Mixer.lean ====
section
/-! DEFINITION. The stereo mixer, down-sampler and clipping unit (spec/42_mixer.md R200 to R209). A mix answers none where a
slot's step needs a byte the platform does not admit a read at. -/

namespace Sys2Proof.Machine

/-- Eligible(s) (R202). -/
def Slot.eligible (c : Slot) : Bool := c.bound && !c.paused && !c.ended

/-- The discarded step of the down-sampler (R203): one rate step when DS = 1 and at least 4 bytes remain. -/
def discardStep (b : Build) (m : List Host.Cell) (c : Slot) : Option Slot :=
  if c.ds ∧ 4 ≤ c.rem then (rateStep b m c).map Prod.snd else some c

/-- One slot's part in a mix (R201): nothing for an ineligible slot; else the discard and the kept rate step. -/
def mixSlot (b : Build) (m : List Host.Cell) (c : Slot) : Sampled :=
  if c.eligible then
    match discardStep b m c with
    | none => none
    | some c1 => rateStep b m c1
  else some (none, c)

/-- What a slot adds to its channel: its kept sample, 0 when there was none (R201). -/
def contribution : Option Sample → Int
  | some x => x.toInt
  | none => 0

/-- 1 for a slot that contributed (R205). -/
def contributed (r : Option Sample) : Nat := if r.isSome then 1 else 0

/-- Clip(v) (R207). -/
def clip (b : Build) (v : Int) : Sample := BitVec.ofInt 16 (clamp v (clipLo b) clipHi)

/-- One channel of a frame: the clipped sum, then the master volume (R207, R208). -/
def channel (b : Build) (mvol : Vol) (sum : Int) : Sample := attenuate (clip b sum) mvol

/-- The frame word: the right channel in bits [31:16], the left in bits [15:0] (R206). -/
def packFrame (l r : Sample) : Word := r ++ l

/-- What a mix leaves: the frame word, the slots after their steps, and the count of contributing slots. -/
structure Mixed where
  word : Word
  slots : Vector Slot 5
  count : BitVec 3
  deriving DecidableEq, Repr

/-- Mix() (R200, R201): slots 0 to 4 in order; the even ones sum to the left channel, the odd ones to the right. -/
def mix (b : Build) (m : List Host.Cell) (mvol : Vol) (slots : Vector Slot 5) : Option Mixed :=
  match mixSlot b m slots[0], mixSlot b m slots[1], mixSlot b m slots[2], mixSlot b m slots[3], mixSlot b m slots[4] with
  | some (r0, c0), some (r1, c1), some (r2, c2), some (r3, c3), some (r4, c4) =>
    some {
      word := packFrame (channel b mvol (contribution r0 + contribution r2 + contribution r4))
        (channel b mvol (contribution r1 + contribution r3))
      slots := #v[c0, c1, c2, c3, c4]
      count := BitVec.ofNat 3 (contributed r0 + contributed r1 + contributed r2 + contributed r3 + contributed r4) }
  | _, _, _, _, _ => none

/-- What filling a buffer leaves: its words, the slots, and LASTMIX. -/
structure Filled where
  words : List Word
  slots : Vector Slot 5
  lastMix : BitVec 3
  deriving DecidableEq, Repr

/-- `n` mixes in a row, the first frame first (R209); `last` is LASTMIX before them. -/
def mixLoop (b : Build) (m : List Host.Cell) (mvol : Vol) : Nat → Vector Slot 5 → BitVec 3 → Option Filled
  | 0, slots, last => some { words := [], slots := slots, lastMix := last }
  | n + 1, slots, _ =>
    match mix b m mvol slots with
    | none => none
    | some x =>
      match mixLoop b m mvol n x.slots x.count with
      | none => none
      | some f => some { f with words := x.word :: f.words }

/-- No slot is eligible: every frame is silence and no slot changes (R209, R210). -/
def silent (slots : Vector Slot 5) : Bool :=
  !(slots[0].eligible || slots[1].eligible || slots[2].eligible || slots[3].eligible || slots[4].eligible)

/-- The frames of one buffer (R209). A mix with no eligible slot gives silence and LASTMIX = 0, so that case is answered
at once; Laws/Mixer.lean shows (mixFrames_eq_mixLoop) that it is what the mixes give. -/
def mixFrames (b : Build) (m : List Host.Cell) (mvol : Vol) (slots : Vector Slot 5) (last : BitVec 3) : Option Filled :=
  if silent slots then some { words := List.replicate (nFrames b) 0, slots := slots, lastMix := 0 }
  else mixLoop b m mvol (nFrames b) slots last

/-- A mix's slots and LASTMIX put back into the state (R201). -/
def State.afterMix (s : State) (f : Filled) : State := { s with slots := f.slots, lastMix := f.lastMix }

/-- MixInto(BUF[t]) (R209). -/
def mixIntoTx (t : Buf) (s : State) : Option State :=
  (mixFrames s.build s.mem s.mvol s.slots s.lastMix).map fun f => (s.afterMix f).setTxBuf t f.words

/-- MixInto(STAGE) (R209). -/
def mixIntoStage (s : State) : Option State :=
  (mixFrames s.build s.mem s.mvol s.slots s.lastMix).map fun f => { s.afterMix f with stage := f.words }

end Sys2Proof.Machine
end

