-- ==== Sys2Proof/Machine/EngineCommands.lean ====
section
/-! DEFINITION. The engine commands of spec/43_engine.md R223 to R233, with the swap, the copy and the re-mix of an active
TICK (R228 to R230). -/

namespace Sys2Proof.Machine

/-- NOP (R223). -/
def execNop (s : State) : Result := .next (s.finish 0)

/-- The mixes of START (R224): BUF[A], BUF[B], and STAGE when PRIME_STAGING = 1. -/
def primeBuffers (s : State) : Option State :=
  (mixIntoTx .a s).bind fun s1 => (mixIntoTx .b s1).bind fun s2 =>
    if s2.build.primeStaging then mixIntoStage s2 else some s2

/-- The hardware start command (R224, R254): buffer A is selected and the DMA runs from its frame 0. -/
def startDma (s : State) : State :=
  { s with sel := .a, evt := false, dma := { run := true, wait := false, ptr := .a, idx := 0 }, mode := .streaming }

/-- START (R224). Priming is held only inside this one step. -/
def execStart (s : State) : Result :=
  if s.mode = .idle then
    orStuck ((primeBuffers { s with mode := .priming }).map fun s1 => (startDma s1).finish 0)
  else .next (s.raiseError .badState)

/-- STOP (R226). -/
def execStop (s : State) : Result :=
  .next ({ s with dma := { s.dma with run := false, wait := false, idx := 0 }, evt := false, mode := .idle }.finish 0)

/-- Swap() (R228): the selector and the transmit pointer move together. -/
def swapBuffers (s : State) : State :=
  { s with sel := s.sel.other, dma := { s.dma with ptr := s.sel.other, idx := 0, wait := false }, evt := false }

/-- The copy of CopyAndRemix() (R229): STAGE into the buffer the selector does not name. -/
def copyStage (s : State) : State := s.setTxBuf s.sel.other s.stage

/-- Finish() (R230): the finished flag and its interrupt cause when the last mix had no contributing slot. -/
def finishTick (s : State) : State :=
  if s.lastMix = 0 then (s.setCause .finished).finish 1 else s.finish 0

/-- TICK (R227): a no-op unless Streaming with the buffer-consumed event pending. -/
def execTick (s : State) : Result :=
  if s.mode = .streaming ∧ s.evt then orStuck ((mixIntoStage (copyStage (swapBuffers s))).map finishTick)
  else .next (s.finish 0)

/-- CLEAR_ALL (R231). -/
def execClearAll (s : State) : Result :=
  .next ({ s with slots := Vector.replicate 5 Slot.unbound }.finish 0)

/-- SET_MASTER_VOL (R232). -/
def execSetMasterVol (s : State) : Result := .next ({ s with mvol := s.latch.vol }.finish 0)

/-- SET_RATE_MODE (R233): the state check comes before the operand check. -/
def execSetRateMode (s : State) : Result :=
  if s.mode = .idle then withOperand s.latch.hz s fun h => .next ({ s with rateMode := h }.finish 0)
  else .next (s.raiseError .badState)

end Sys2Proof.Machine
end

