-- ==== Sys2Proof/Machine/SlotCommands.lean ====
section
/-! DEFINITION. The slot commands of spec/40_sample_path.md R140 to R150 (SET_RATE stands with the resampler). Each first
makes the slot checks of spec/60_exceptions.md R272, then its operand check, and completes with its RESULT. -/

namespace Sys2Proof.Machine

/-- BIND (R140): the slot's fields are replaced whole. -/
def execBind (n : BitVec 3) (s : State) : Result :=
  onSlot n s fun i => withOperand s.latch.dataRegion s fun r =>
    .next ((s.setSlot i { Slot.unbound with bound := true, base := r.1, len := r.2 }).finish 0)

/-- UNBIND (R141); no error on an unbound slot. -/
def execUnbind (n : BitVec 3) (s : State) : Result :=
  onSlot n s fun i => .next ((s.setSlot i Slot.unbound).finish 0)

/-- SET_VOL (R142). -/
def execSetVol (n : BitVec 3) (s : State) : Result :=
  onBoundSlot n s fun i c => .next ((s.setSlot i { c with vol := s.latch.vol }).finish 0)

/-- SET_LOOP (R143). -/
def execSetLoop (n : BitVec 3) (s : State) : Result :=
  onBoundSlot n s fun i c => withOperand s.latch.flag s fun f => .next ((s.setSlot i { c with loop := f }).finish 0)

/-- PAUSE (R144). -/
def execPause (n : BitVec 3) (s : State) : Result :=
  onBoundSlot n s fun i c => .next ((s.setSlot i { c with paused := true }).finish 0)

/-- UNPAUSE (R145). -/
def execUnpause (n : BitVec 3) (s : State) : Result :=
  onBoundSlot n s fun i c => .next ((s.setSlot i { c with paused := false }).finish 0)

/-- SET_DEPOP (R146). -/
def execSetDepop (n : BitVec 3) (s : State) : Result :=
  onBoundSlot n s fun i c => withOperand s.latch.depop s fun f =>
    .next ((s.setSlot i { c with dps := f.1, dpe := f.2 }).finish 0)

/-- SET_DOWNSAMPLE (R147). -/
def execSetDownsample (n : BitVec 3) (s : State) : Result :=
  onBoundSlot n s fun i c => withOperand s.latch.flag s fun f => .next ((s.setSlot i { c with ds := f }).finish 0)

/-- SEEK_START (R148). -/
def execSeekStart (n : BitVec 3) (s : State) : Result :=
  onBoundSlot n s fun i c => .next ((s.setSlot i c.rewind).finish 1)

/-- RESULT of a FETCH (R149): bit 16 marks a sample, its pattern in bits [15:0]; 0 for none. -/
def fetchWord : Option Sample → Word
  | some x => 0#15 ++ 1#1 ++ x
  | none => 0

/-- FETCH (R149). -/
def execFetch (n : BitVec 3) (s : State) : Result :=
  onBoundSlot n s fun i c =>
    orStuck ((rateStep s.build s.mem c).map fun r => (s.setSlot i r.2).finish (fetchWord r.1))

/-- SKIP (R150). -/
def execSkip (n : BitVec 3) (s : State) : Result :=
  onBoundSlot n s fun i c =>
    orStuck ((skipN s.build s.mem s.latch.count c).map fun r => (s.setSlot i r.2).finish (BitVec.ofNat 32 r.1))

end Sys2Proof.Machine
end

