-- ==== Sys2Proof/Machine/Dispatch.lean ====
section
/-! DEFINITION. The meaning of each command: the SEQ step that executes it, with the operands of the latch, from the checks
that read the state to the completion (spec/43_engine.md R220, spec/60_exceptions.md R272). -/

namespace Sys2Proof.Machine

/-- What executing a command does, one arm per row of the opcode table. -/
def exec (i : Instr) (s : State) : Host.Outcome State Fault Refusal :=
  match i with
  | .nop => Sys2Proof.Machine.execNop s
  | .start => Sys2Proof.Machine.execStart s
  | .stop => Sys2Proof.Machine.execStop s
  | .tick => Sys2Proof.Machine.execTick s
  | .clearAll => Sys2Proof.Machine.execClearAll s
  | .setMasterVol => Sys2Proof.Machine.execSetMasterVol s
  | .setRateMode => Sys2Proof.Machine.execSetRateMode s
  | .bind n => Sys2Proof.Machine.execBind n s
  | .unbind n => Sys2Proof.Machine.execUnbind n s
  | .setVol n => Sys2Proof.Machine.execSetVol n s
  | .setLoop n => Sys2Proof.Machine.execSetLoop n s
  | .pause n => Sys2Proof.Machine.execPause n s
  | .unpause n => Sys2Proof.Machine.execUnpause n s
  | .setDepop n => Sys2Proof.Machine.execSetDepop n s
  | .setDownsample n => Sys2Proof.Machine.execSetDownsample n s
  | .seekStart n => Sys2Proof.Machine.execSeekStart n s
  | .fetch n => Sys2Proof.Machine.execFetch n s
  | .skip n => Sys2Proof.Machine.execSkip n s
  | .setRate n => Sys2Proof.Machine.execSetRate n s

end Sys2Proof.Machine
end

