-- ==== Sys2Proof/Machine/Dma.lean ====
section
/-! DEFINITION. The DMA step (spec/44_dma.md R251, R252). -/

namespace Sys2Proof.Machine

/-- The DMA has a step (R251). -/
def dmaEnabled (s : State) : Bool := s.dma.run && !s.dma.wait

/-- Emit(w) (R15): the word goes to the I2S serializer. -/
def State.emit (s : State) (w : Word) : State := { s with tx := s.tx ++ [w] }

/-- EndOfBuffer() (R252). -/
def endOfBuffer (s : State) : State :=
  { s with dma := { s.dma with idx := 0, wait := true }, evt := true }.setCause .consumed

/-- The transmission of one frame (R251): Emit, then the next index, or the end of the buffer. -/
def transmit (s : State) : State :=
  if s.dma.idx.toNat + 1 = nFrames s.build then
    endOfBuffer (s.emit (wordAt (s.txBuf s.dma.ptr) s.dma.idx.toNat))
  else { s.emit (wordAt (s.txBuf s.dma.ptr) s.dma.idx.toNat) with dma := { s.dma with idx := s.dma.idx + 1 } }

/-- DmaStep() (R251); nothing when the DMA has no step (R253, R254). -/
def dmaStep (s : State) : State := if dmaEnabled s then transmit s else s

end Sys2Proof.Machine
end

