-- ==== Sys2Proof/Machine/HostPort.lean ====
section
/-! DEFINITION. The host's side: the register map (spec/10_state.md R33 to R62), register reads and writes (R34, R41 to R45,
spec/43_engine.md R221, spec/60_exceptions.md R274), the host step (spec/00_scope.md R9), and the assembler notation of host
programs (spec/30_encoding.md R109 to R112). -/

namespace Sys2Proof.Machine

/-- The registers of one slot block (R51). -/
inductive SlotReg where
  | sflags
  | sbase
  | slen
  | spos
  | svol
  | srate
  | sacc
  | slast
  | scnt
  | srem
  deriving DecidableEq, Repr

/-- The registers of the map R33. -/
inductive Reg where
  | id
  | params
  | status
  | arg0
  | arg1
  | cmd
  | result
  | irqEn
  | irqStatus
  | err
  | mvol
  | dmaIdx
  | depopParams
  | slot (i : Fin 5) (r : SlotReg)
  | bufA (i : Nat)
  | bufB (i : Nat)
  | stage (i : Nat)
  | reserved
  deriving DecidableEq, Repr

/-- The engine register of a word index below 0x40 (R33). -/
def engineRegAt : Nat → Reg
  | 0 => .id
  | 1 => .params
  | 2 => .status
  | 3 => .arg0
  | 4 => .arg1
  | 5 => .cmd
  | 6 => .result
  | 7 => .irqEn
  | 8 => .irqStatus
  | 9 => .err
  | 10 => .mvol
  | 11 => .dmaIdx
  | 12 => .depopParams
  | _ => .reserved

/-- The register of a word index within a slot block (R51). -/
def slotRegAt : Nat → Option SlotReg
  | 0 => some .sflags
  | 1 => some .sbase
  | 2 => some .slen
  | 3 => some .spos
  | 4 => some .svol
  | 5 => some .srate
  | 6 => some .sacc
  | 7 => some .slast
  | 8 => some .scnt
  | 9 => some .srem
  | _ => none

/-- The register of slot block `i` at a word index within the block (R51); the rest of the block is reserved. -/
def slotBlockReg (i : Fin 5) (k : Nat) : Reg :=
  match slotRegAt k with
  | some r => .slot i r
  | none => .reserved

/-- The register at word index `k`, offset 4 * k, of the block (R33). -/
def regAt (k : Nat) : Reg :=
  if k < 0x40 then engineRegAt k
  else if h : (k - 0x40) / 16 < 5 then slotBlockReg ⟨(k - 0x40) / 16, h⟩ ((k - 0x40) % 16)
  else if k < 0x400 then .reserved
  else if k < 0x800 then .bufA (k - 0x400)
  else if k < 0xC00 then .bufB (k - 0x800)
  else if k < 0x1000 then .stage (k - 0xC00)
  else .reserved

/-- The value a slot register reads as (R51). -/
def Slot.readReg (c : Slot) : SlotReg → Word
  | .sflags => c.flagsWord
  | .sbase => c.base
  | .slen => c.len
  | .spos => c.pos
  | .svol => c.vol.setWidth 32
  | .srate => c.rate
  | .sacc => c.acc
  | .slast => c.last.signExtend 32
  | .scnt => c.cnt
  | .srem => BitVec.ofNat 32 c.rem

/-- The value a register reads as (R34 to R62); no read has a side effect. DESIGN CHOICE (log entry 22): R64 counts the latch
among the state that is readable through a register, and R33 gives CL.CW, CL.A0 and CL.A1 none; the model follows the map, so
of the latch a host reads the full flag alone, STATUS.BUSY. -/
def readReg (s : State) : Reg → Word
  | .id => idWord
  | .params => paramsWord s.build
  | .status => s.statusWord
  | .arg0 => s.arg0
  | .arg1 => s.arg1
  | .cmd => 0
  | .result => s.result
  | .irqEn => s.irqEn.setWidth 32
  | .irqStatus => s.irqStatus.setWidth 32
  | .err => s.err.word
  | .mvol => s.mvol.setWidth 32
  | .dmaIdx => s.dma.idx.setWidth 32
  | .depopParams => depopParamsWord s.build
  | .slot i r => (s.slot i).readReg r
  | .bufA i => if i < nFrames s.build then wordAt s.bufA i else 0
  | .bufB i => if i < nFrames s.build then wordAt s.bufB i else 0
  | .stage i => if i < nFrames s.build then wordAt s.stage i else 0
  | .reserved => 0

/-- CMD acceptance (R221): the word and the operands are latched while BUSY = 0; a write while BUSY = 1 is an overrun and
changes nothing but ERR and IRQ_STATUS.ERR (R274). -/
def writeCmd (s : State) (w : Word) : State :=
  if s.busy then s.recordError .cmdOverrun w
  else { s with latch := { cw := w, a0 := s.arg0, a1 := s.arg1 }, busy := true }

/-- A register write (R34): only ARG0, ARG1, CMD, IRQ_EN and IRQ_STATUS take one, and reserved bits are ignored. -/
def writeReg (s : State) (r : Reg) (v : Word) : State :=
  match r with
  | .arg0 => { s with arg0 := v }
  | .arg1 => { s with arg1 := v }
  | .cmd => writeCmd s v
  | .irqEn => { s with irqEn := v.extractLsb' 0 4 }
  | .irqStatus => { s with irqStatus := s.irqStatus &&& ~~~(v.extractLsb' 0 4) }
  | .id | .params | .status | .result | .err | .mvol | .dmaIdx | .depopParams | .slot _ _ | .bufA _ | .bufB _ | .stage _
  | .reserved => s

/-- The block's 16 KiB window (R33). -/
def windowBytes : Nat := 0x4000

/-- The offset of a bus address from MMIO_BASE (R33). -/
def offsetOf (b : Build) (addr : Word) : Nat := (addr - b.mmioBase).toNat

/-- A host register access (R33, R86): outside the window the block is not addressed; inside it only an aligned 32-bit
access reaches a register, and any other is the platform's bus error. -/
def access (s : State) (addr : Word) (w : Width) (k : Reg → State) : Result :=
  if windowBytes ≤ offsetOf s.build addr then .next s
  else if w = .word ∧ offsetOf s.build addr % 4 = 0 then .next (k (regAt (offsetOf s.build addr / 4)))
  else .refused .busError

/-- A register read's value goes to the host (R109). -/
def State.answer (s : State) (v : Word) : State := { s with reads := s.reads ++ [v] }

/-- A sample-memory address lies in the data region of a bound slot (R93, R315). DESIGN CHOICE (log entry 11): the odd
trailing byte of a region of odd LEN, which no raw step reads (R132), counts as a byte of the region, so R315 decides for it
and not R307's "bytes no bound slot may read". -/
def Slot.covers (c : Slot) (x : Nat) : Bool :=
  c.bound && decide (c.base.toNat ≤ x) && decide (x < c.base.toNat + c.len.toNat)

/-- Some bound slot's data region holds the address. -/
def inBoundRegion (s : State) (x : Nat) : Bool := s.slots.any fun c => c.covers x

/-- The poll of the assembler's wait (R109): the host reads again until the masked value is the one it waits for. -/
def pollAgain (op : HostOp) (mask value v : Word) (s : State) : State :=
  if v &&& mask = value then s.answer v else { s with host := op :: s.host }.answer v

/-- One action of the host (R9, R307); `s` is the state with the action taken off the host's program. -/
def hostAction (op : HostOp) (s : State) : Result :=
  match op with
  | .read addr w => access s addr w fun r => s.answer (readReg s r)
  | .write addr w v => access s addr w fun r => writeReg s r v
  | .poll addr mask value => access s addr .word fun r => pollAgain op mask value (readReg s r) s
  | .store addr v =>
    if inBoundRegion s addr.toNat then .refused .racingSampleWrite
    else .next { s with mem := putCell s.mem addr.toNat v }

/-- The host's step: its next action; none left is no step. -/
def hostStep (s : State) : Result :=
  match s.host with
  | [] => .next s
  | op :: rest => hostAction op { s with host := rest }

/-! ## The assembler notation of host programs (R109 to R112) -/

/-- The word index of a slot register within its block (R51). -/
def SlotReg.index : SlotReg → Nat
  | .sflags => 0
  | .sbase => 1
  | .slen => 2
  | .spos => 3
  | .svol => 4
  | .srate => 5
  | .sacc => 6
  | .slast => 7
  | .scnt => 8
  | .srem => 9

/-- The word index of a register in the block (R33); a reserved place is named by 0x0FC. -/
def Reg.index : Reg → Nat
  | .id => 0
  | .params => 1
  | .status => 2
  | .arg0 => 3
  | .arg1 => 4
  | .cmd => 5
  | .result => 6
  | .irqEn => 7
  | .irqStatus => 8
  | .err => 9
  | .mvol => 10
  | .dmaIdx => 11
  | .depopParams => 12
  | .slot i r => 0x40 + 16 * i.val + r.index
  | .bufA i => 0x400 + i
  | .bufB i => 0x800 + i
  | .stage i => 0xC00 + i
  | .reserved => 0x3F

/-- The bus address of a register (R33). -/
def Reg.busAddr (b : Build) (r : Reg) : Word := b.mmioBase + BitVec.ofNat 32 (4 * r.index)

/-- A statement of the host assembly language (R109). -/
inductive Stmt where
  /-- wr REG, value -/
  | wr (r : Reg) (v : Word)
  /-- rd REG -/
  | rd (r : Reg)
  /-- wait REG, mask, value -/
  | wait (r : Reg) (mask value : Word)
  /-- MNEMONIC sK, v0, v1, with .nw when `noWait`; the operands given are those written to ARG0 and ARG1 -/
  | command (i : Instr) (v0 v1 : Option Word) (noWait : Bool)
  deriving DecidableEq, Repr

/-- The host action of a 32-bit register write. -/
def wrOp (b : Build) (r : Reg) (v : Word) : HostOp := .write (r.busAddr b) .word v

/-- WAITIDLE (R112): wait STATUS, 0x10, 0x00. -/
def waitIdle (b : Build) : HostOp := .poll (Reg.busAddr b .status) 0x10 0x00

/-- WAITEVT (R112): wait STATUS, 0x08, 0x08. -/
def waitEvt (b : Build) : HostOp := .poll (Reg.busAddr b .status) 0x08 0x08

/-- What a statement expands to (R111). -/
def Stmt.expand (b : Build) : Stmt → List HostOp
  | .wr r v => [wrOp b r v]
  | .rd r => [.read (r.busAddr b) .word]
  | .wait r mask value => [.poll (r.busAddr b) mask value]
  | .command i v0 v1 noWait =>
    (v0.toList.map (wrOp b .arg0)) ++ (v1.toList.map (wrOp b .arg1)) ++ [wrOp b .cmd (encode i)]
      ++ (if noWait then [] else [waitIdle b])

/-- MUTE sK (R112). -/
def Stmt.mute (n : BitVec 3) : Stmt := .command (.setVol n) (some 0) none false

/-- LOOP sK (R112). -/
def Stmt.loop (n : BitVec 3) : Stmt := .command (.setLoop n) (some 1) none false

/-- NOLOOP sK (R112). -/
def Stmt.noLoop (n : BitVec 3) : Stmt := .command (.setLoop n) (some 0) none false

/-- DEPOP sK, a, b (R112). -/
def Stmt.depop (n : BitVec 3) (a e : Bool) : Stmt :=
  .command (.setDepop n) (some (0#30 ++ bit e ++ bit a)) none false

/-- PLAIN sK (R112). -/
def Stmt.plain (n : BitVec 3) : Stmt := .command (.setRate n) (some 0) none false

/-- SERVICE (R112): WAITEVT, then TICK. -/
def service (b : Build) : List HostOp := waitEvt b :: Stmt.expand b (.command .tick none none false)

/-- ACK m (R112). -/
def Stmt.ack (m : Word) : Stmt := .wr .irqStatus m

/-- ISENDED sK and ISPAUSED sK (R112): a read of SFLAGS. -/
def Stmt.readFlags (i : Fin 5) : Stmt := .rd (.slot i .sflags)

/-- The pattern of the qvalue literal r q with r = digits / 10^places (R12, R109, R110): r * 65536, which must be an integer
within s32; none where the assembler rejects the literal. -/
def qvalue (digits : Int) (places : Nat) : Option Word :=
  if digits * 65536 % 10 ^ places = 0 ∧ -2 ^ 31 ≤ digits * 65536 / 10 ^ places ∧ digits * 65536 / 10 ^ places < 2 ^ 31 then
    some (BitVec.ofInt 32 (digits * 65536 / 10 ^ places))
  else none

end Sys2Proof.Machine
end

