-- ==== Sys2Proof/Machine/Agents.lean ====
section
/-! DEFINITION. The agents and their interleaving (spec/00_scope.md R9, spec/43_engine.md R220): the sequencer's step, whose
turn is next, and what a turn does. -/

namespace Sys2Proof.Machine

/-- The error a word that decodes to no command raises (R107, R272). -/
def decodeErrorCode : DecodeError → CmdError
  | .illegalOpcode => .illegalOpcode
  | .reserved => .reserved

/-- The SEQ step (R220): it executes the latched command; with BUSY = 0 SEQ has no step. -/
def seqStep (s : State) : Result :=
  if s.busy then
    match decode s.latch.cw with
    | .ok i => exec i s
    | .error e => .next (s.raiseError (decodeErrorCode e))
  else .next s

/-- SEQ has a step (R220): BUSY = 1, and the latched command is not stuck on a sample read that is not admitted (R82). -/
def seqEnabled (s : State) : Bool :=
  s.busy &&
    match seqStep s with
    | .next _ => true
    | .refused _ => true
    | .fault _ => false

/-- The agents that could step now (R9): the host while it has an action left, SEQ while BUSY = 1 and it is not stuck, the
DMA while it runs and does not wait. -/
def enabledTurns (s : State) : List Turn :=
  (if s.host = [] then [] else [.host]) ++ (if seqEnabled s then [.seq] else []) ++ (if dmaEnabled s then [.dma] else [])

/-- Whose turn is next, with the state after it is taken (R9; log entry 1): the head of the agenda; with an empty agenda an
agent that could step, by a free choice where there are several; none when no agent has a step. -/
def pickTurn (s : State) : Option Turn × State :=
  match s.agenda with
  | t :: ts => (some t, { s with agenda := ts })
  | [] =>
    match enabledTurns s with
    | [] => (none, s)
    | [t] => (some t, s)
    | t :: u :: ts =>
      ((t :: u :: ts)[Config.turn s.draws % (t :: u :: ts).length]?, { s with draws := s.draws + 1 })

/-- What a turn does; a turn given to an agent that has no step changes nothing. -/
def takeTurn (t : Turn) (s : State) : Result :=
  match t with
  | .host => hostStep s
  | .seq => seqStep s
  | .dma => .next (dmaStep s)
  | .reset => .next s.resetBlock

end Sys2Proof.Machine
end

