-- ==== Sys2Proof/Machine/Step.lean ====
section
/-! DEFINITION. One step of the machine: the next agent's turn (spec/00_scope.md R9). -/

namespace Sys2Proof.Machine

/-- One step: the next turn is taken; when no agent has a step the machine stands still. -/
def step (s : State) : Host.Outcome State Fault Refusal :=
  match pickTurn s with
  | (none, s1) => .next s1
  | (some t, s1) => takeTurn t s1

/-- The state with the command word `w` latched and the next turn given to SEQ, so that the next step executes exactly it
(log entry 3): the block fetches nothing, and a command comes to run by being latched (R221). -/
def State.withFetchWord (s : State) (nbits w : Nat) : State :=
  { s with latch := { s.latch with cw := BitVec.ofNat 32 (w % 2 ^ nbits) }, busy := true, agenda := .seq :: s.agenda }

end Sys2Proof.Machine
end

