-- ==== Sys2Proof/Safety.lean ====
section
/-! DEFINITION. What counts as a safe state, in the terms claims use: the invariants the spec states of a slot
(spec/10_state.md R50 to R60), of the DMA and its buffers (R61 to R63, spec/44_dma.md R253) and of the whole state, and when
a data region can be read (spec/20_memory.md R82). -/

namespace Sys2Proof.Machine

/-- The slot number a command word holds for slot `i` (R102). -/
def slotNo (i : Fin 5) : BitVec 3 := BitVec.ofNat 3 i.val

/-- The invariant of one slot: its data region stays in the 32-bit space (R50), POS within it (R53), VOL at most 1.0 (R54),
ACC below 1.0 in skip mode (R56), and an unbound slot is the unbound state (R60). -/
abbrev Slot.Inv (c : Slot) : Prop :=
  c.base.toNat + c.len.toNat ≤ 2 ^ 32 ∧ c.pos.toNat ≤ c.len.toNat ∧ c.vol.toNat ≤ 0x10000 ∧
    (0 < c.rate.toInt → c.acc.toNat < 0x10000) ∧ (c.bound = false → c = Slot.unbound)

/-- Every byte of the slot's data region is one the platform admits a read at (R82). -/
abbrev Slot.Readable (b : Build) (c : Slot) : Prop := ∀ k < c.len.toNat, admitted b (c.base.toNat + k) = true

/-- The invariant of the DMA and the engine state (R35, R61, R63, R234, R253): Priming is never held, the DMA runs exactly
in Streaming and on the buffer SEL names, EVT is dma.WAIT, only a running DMA waits, and IDX names a frame. -/
abbrev State.DmaInv (s : State) : Prop :=
  s.mode ≠ .priming ∧ (s.dma.run = true ↔ s.mode = .streaming) ∧ (s.dma.run = true → s.dma.ptr = s.sel) ∧
    s.evt = s.dma.wait ∧ (s.dma.wait = true → s.dma.run = true) ∧ s.dma.idx.toNat < nFrames s.build

/-- Every buffer holds N_FRAMES words (R62). -/
abbrev State.BuffersInv (s : State) : Prop :=
  s.bufA.length = nFrames s.build ∧ s.bufB.length = nFrames s.build ∧ s.stage.length = nFrames s.build

/-- The invariant of the whole state. -/
structure State.Inv (s : State) : Prop where
  /-- Every slot keeps the slot invariant. -/
  slots : ∀ i : Fin 5, (s.slot i).Inv
  /-- The engine state, the DMA and the event agree. -/
  dma : s.DmaInv
  /-- The buffers have their size. -/
  buffers : s.BuffersInv
  /-- MVOL is at most 1.0 (R47). -/
  mvol : s.mvol.toNat ≤ 0x10000
  /-- LASTMIX counts at most five slots (R38). -/
  lastMix : s.lastMix.toNat ≤ 5
  /-- ERR holds a code that is recorded (R271). -/
  err : s.err.code.toNat ≤ 7
  /-- Sample memory is in canonical form. -/
  mem : Memory.wf s.mem = true

/-- Every bound slot's data region can be read to its end, so no step of the slot leaves SEQ stuck (R82). -/
abbrev State.SlotsReadable (s : State) : Prop :=
  ∀ i : Fin 5, (s.slot i).bound = true → (s.slot i).Inv ∧ (s.slot i).Readable s.build

/-- The run of a host program is over (R306): its last action is done, BUSY = 0, and the DMA has no step. What the run
produced is `tx` and the final registers and slots. -/
abbrev State.RunOver (s : State) : Prop := s.host = [] ∧ s.busy = false ∧ dmaEnabled s = false

/-- `n` steps in a row, ending at the first fault or refusal. -/
def runSteps : Nat → State → Result
  | 0, s => .next s
  | n + 1, s =>
    match step s with
    | .next t => runSteps n t
    | .fault f => .fault f
    | .refused r => .refused r

/-- The next state of an outcome, if it is one. -/
def nextOf (o : Result) : Option State :=
  match o with
  | .next s => some s
  | .fault _ => none
  | .refused _ => none

end Sys2Proof.Machine
end

