-- ==== Sys2Proof/Certificates/Slice0/Obligations.lean ====
section
/-! DEFINITION. The statements for the provers. Each docstring names the rule of spec/ it formalises. A command that
completes is stated as the whole next state, written as the old state with the fields the rule writes: every field not named
is unchanged, so each such statement is its command's frame as well. -/

open Sys2Proof Sys2Proof.Machine

/-- The state after a successful command that returns `r`: RESULT, DONE and BUSY (R42, R222). -/
def Spec.completed (s : State) (r : Word) : State :=
  { s with result := r, irqStatus := s.irqStatus ||| 0b1000#4, busy := false }

/-- The state after a command error of code `e` (R46, R275, R222): the latched word's OPC and SLOT, the causes ERR and DONE,
and BUSY; nothing else. -/
def Spec.failed (s : State) (e : BitVec 4) : State :=
  { s with
    err := { code := e, opc := s.latch.cw.extractLsb' 0 8, slot := s.latch.cw.extractLsb' 8 3 }
    irqStatus := s.irqStatus ||| 0b1100#4
    busy := false }

/-- `s` with slot `i` replaced. -/
def Spec.withSlot (s : State) (i : Fin 5) (c : Slot) : State := { s with slots := s.slots.set i.val c i.isLt }

/-- An OPC that holds a command (R105). -/
def Spec.legalOpc (opc : BitVec 8) : Prop :=
  opc.toNat ≤ 0x06 ∨ (0x10 ≤ opc.toNat ∧ opc.toNat ≤ 0x1A) ∨ opc.toNat = 0x20

/-- The bus address of word `k` of the register window (R33). -/
def Spec.regAddr (s : State) (k : Nat) : Word := s.build.mmioBase + BitVec.ofNat 32 (4 * k)

/-! ### The sample path and the mixer, on integers -/

/-- The platform admits a read of sample memory at the address (R82, R90). -/
abbrev Spec.Admitted (b : Build) (x : Nat) : Prop := x < 2 ^ 32 ∧ ∃ r ∈ b.readable, r.base ≤ x ∧ x < r.base + r.len

/-- Step (1) of a raw step rewinds the slot (R135): less than one sample is left, and the slot loops. -/
abbrev Spec.Rewinds (c : Slot) : Prop := c.len.toNat < c.pos.toNat + 2 ∧ c.loop = true

/-- POS after step (1), where a raw step reads (R135). -/
def Spec.readPos (c : Slot) : Nat := if Spec.Rewinds c then 0 else c.pos.toNat

/-- CNT after step (1) (R135). -/
def Spec.readCnt (c : Slot) : Nat := if Spec.Rewinds c then 0 else c.cnt.toNat

/-- The next raw step of the slot needs a byte that cannot be read (R82, R135). -/
abbrev Spec.NextRawStepStuck (b : Build) (c : Slot) : Prop :=
  Spec.readPos c + 2 ≤ c.len.toNat ∧
    ¬ (Spec.Admitted b (c.base.toNat + Spec.readPos c) ∧ Spec.Admitted b (c.base.toNat + Spec.readPos c + 1))

/-- The next rate step of a slot that has not ended takes a raw step: in every mode but where repeat mode gives LAST again
(R183 to R186). -/
abbrev Spec.TakesRawStep (c : Slot) : Prop :=
  c.first = true ∨ 0 ≤ c.rate.toInt ∨ c.acc.toNat + c.rate.toInt.natAbs < 65536

/-- The mixer skips the slot (R202): it is unbound, paused or ended. -/
abbrev Spec.Skipped (c : Slot) : Prop :=
  c.bound = false ∨ c.paused = true ∨ (c.len.toNat ≤ c.pos.toNat ∧ c.loop = false)

/-- x * V / 65536 toward zero below 1.0, x at 1.0 (R136). -/
def Spec.attenuated (x : Int) (v : Vol) : Int := if v.toNat < 0x10000 then (x * v.toNat).tdiv 65536 else x

/-- Steps (3) and (4) of the raw step of slot `c` on the stored sample `x` (R135 to R137). -/
def Spec.afterStartDepop (b : Build) (c : Slot) (x : Int) : Int :=
  if c.dps = true ∧ Spec.readCnt c < b.depopStartN.toNat then (Spec.attenuated x c.vol + c.last.toInt).tdiv 2
  else Spec.attenuated x c.vol

/-- Steps (3) to (5) of the raw step of slot `c` on the stored sample `x`; the bytes left are counted after the read
(R135 to R138). -/
def Spec.shaped (b : Build) (c : Slot) (x : Int) : Int :=
  if c.dpe = true ∧ c.len.toNat - (Spec.readPos c + 2) < depopEndBytes b then
    (Spec.afterStartDepop b c x * (c.len.toNat - (Spec.readPos c + 2) : Nat)).tdiv (depopEndBytes b)
  else Spec.afterStartDepop b c x

/-- The slot after a raw step of `c` that gave the sample `y` (R135 steps (6) and (7), R133): LAST is recorded and CNT
counted, and at the loop point POS and CNT go to 0. -/
def Spec.afterRawStep (c : Slot) (y : Sample) : Slot :=
  if c.loop = true ∧ c.len.toNat < Spec.readPos c + 4 then { c with pos := 0, cnt := 0, last := y }
  else
    { c with
      pos := BitVec.ofNat 32 (Spec.readPos c + 2)
      cnt := BitVec.ofNat 32 (min (Spec.readCnt c + 1) (2 ^ 32 - 1))
      last := y }

/-- What a slot adds to its channel's sum: its sample, or 0 for none (R201). -/
def Spec.given (r : Option Sample) : Int :=
  match r with
  | some x => x.toInt
  | none => 0

/-- A channel of a frame from its exact sum: clipped, then scaled by the master volume (R207, R208). -/
def Spec.channelOf (b : Build) (mvol : Vol) (sum : Int) : Int :=
  Spec.attenuated (max (if b.clipSym then -32767 else -32768) (min sum 32767)) mvol

/-- `f` is what filling a buffer from `slots` leaves (R209): N_FRAMES mixes in a row, frame 0 first, each on the slots the
mix before it left; the slots and LASTMIX are those of the last. -/
def Spec.Fills (b : Build) (m : List Host.Cell) (mvol : Vol) (slots : Vector Slot 5) (f : Filled) : Prop :=
  ∃ x : Nat → Mixed,
    (∀ i < nFrames b, mix b m mvol (if i = 0 then slots else (x (i - 1)).slots) = some (x i)) ∧
    f.words = (List.range (nFrames b)).map (fun i => (x i).word) ∧
    f.slots = (x (nFrames b - 1)).slots ∧ f.lastMix = (x (nFrames b - 1)).count

/-! ## Encoding (R100 to R108, R113) -/

/-- Decoding an encoded command gives it back, with every value of its SLOT field (R100, R105, R106). -/
def Obligations.DecodeOfEncodeIsTheCommand : Prop := ∀ i : Instr, decode (encode i) = .ok i

/-- A word that decodes is the encoding of its command: each command has one word (R106, R108). -/
def Obligations.EncodeOfDecodeIsTheWord : Prop := ∀ (cw : Word) (i : Instr), decode cw = .ok i → encode i = cw

/-- Which words decode to no command, and why (R102, R103, R106, R107): the opcode is tested first. -/
def Obligations.DecodeRefusesExactlyTheIllegalAndReservedWords : Prop :=
  ∀ cw : Word,
    (decode cw = .error .illegalOpcode ↔ ¬ Spec.legalOpc (cw.extractLsb' 0 8)) ∧
    (decode cw = .error .reserved ↔
      Spec.legalOpc (cw.extractLsb' 0 8) ∧
        (cw.extractLsb' 11 21 ≠ 0 ∨ ((cw.extractLsb' 0 8).toNat ≤ 0x06 ∧ cw.extractLsb' 8 3 ≠ 0)))

/-- The worked encodings of R113 decode to the commands they stand for. -/
def Obligations.WorkedEncodingsDecode : Prop :=
  decode 0x00000001#32 = .ok .start ∧ decode 0x00000003#32 = .ok .tick ∧ decode 0x00000005#32 = .ok .setMasterVol ∧
  decode 0x00000006#32 = .ok .setRateMode ∧ decode 0x00000110#32 = .ok (.bind 1) ∧
  decode 0x00000212#32 = .ok (.setVol 2) ∧ decode 0x00000416#32 = .ok (.setDepop 4) ∧
  decode 0x00000319#32 = .ok (.fetch 3) ∧ decode 0x00000020#32 = .ok (.setRate 0)

/-- The register map (R33, R51, R62): the register at each word offset (the byte offset is 4 times it), and the word offset
the assembler notation gives each register is its own. -/
def Obligations.RegisterMapIsOneToOne : Prop :=
  (regAt 0 = .id ∧ regAt 1 = .params ∧ regAt 2 = .status ∧ regAt 3 = .arg0 ∧ regAt 4 = .arg1 ∧ regAt 5 = .cmd ∧
    regAt 6 = .result ∧ regAt 7 = .irqEn ∧ regAt 8 = .irqStatus ∧ regAt 9 = .err ∧ regAt 10 = .mvol ∧
    regAt 11 = .dmaIdx ∧ regAt 12 = .depopParams) ∧
  (∀ i : Fin 5,
    regAt (0x40 + 16 * i.val) = .slot i .sflags ∧ regAt (0x41 + 16 * i.val) = .slot i .sbase ∧
    regAt (0x42 + 16 * i.val) = .slot i .slen ∧ regAt (0x43 + 16 * i.val) = .slot i .spos ∧
    regAt (0x44 + 16 * i.val) = .slot i .svol ∧ regAt (0x45 + 16 * i.val) = .slot i .srate ∧
    regAt (0x46 + 16 * i.val) = .slot i .sacc ∧ regAt (0x47 + 16 * i.val) = .slot i .slast ∧
    regAt (0x48 + 16 * i.val) = .slot i .scnt ∧ regAt (0x49 + 16 * i.val) = .slot i .srem) ∧
  (∀ k < 1024, regAt (0x400 + k) = .bufA k ∧ regAt (0x800 + k) = .bufB k ∧ regAt (0xC00 + k) = .stage k) ∧
  (∀ r ∈ [Reg.id, .params, .status, .arg0, .arg1, .cmd, .result, .irqEn, .irqStatus, .err, .mvol, .dmaIdx, .depopParams],
      regAt r.index = r) ∧
    (∀ (i : Fin 5) (r : SlotReg), regAt (Reg.slot i r).index = .slot i r) ∧
    (∀ k < 1024, regAt (Reg.bufA k).index = .bufA k ∧ regAt (Reg.bufB k).index = .bufB k ∧
      regAt (Reg.stage k).index = .stage k)

/-! ## Steps of the agents (R9, R220, R221, R251) -/

/-- A turn of SEQ is its step, whatever is latched, a word that decodes to no command among it (R220); so is a step with an
empty agenda where SEQ alone can step and is not stuck. With a command latched that step runs exactly the decoded command. -/
def Obligations.SeqStepRunsTheDecodedCommand : Prop :=
  (∀ (s : State) (ts : List Turn), s.agenda = .seq :: ts → step s = seqStep { s with agenda := ts }) ∧
  (∀ s : State, s.agenda = [] → s.host = [] → s.busy = true → (s.dma.run = false ∨ s.dma.wait = true) →
    (∀ f, seqStep s ≠ .fault f) → step s = seqStep s) ∧
  (∀ (s : State) (i : Instr), s.busy = true → decode s.latch.cw = .ok i →
    (∀ ts, s.agenda = .seq :: ts → step s = exec i { s with agenda := ts }) ∧
    (s.agenda = [] → s.host = [] → (s.dma.run = false ∨ s.dma.wait = true) → (∀ f, exec i s ≠ .fault f) →
      step s = exec i s))

/-- A latched word that holds no command raises its error and changes nothing else (R103, R107), ILLEGAL_OPCODE before
RESERVED: the outcomes of the step of SEQ. -/
def Obligations.UndecodedWordRaisesItsError : Prop :=
  ∀ s : State, s.busy = true →
    (¬ Spec.legalOpc (s.latch.cw.extractLsb' 0 8) → seqStep s = .next (Spec.failed s 1)) ∧
    (Spec.legalOpc (s.latch.cw.extractLsb' 0 8) → s.latch.cw.extractLsb' 11 21 ≠ 0 →
      seqStep s = .next (Spec.failed s 3)) ∧
    ((s.latch.cw.extractLsb' 0 8).toNat ≤ 0x06 → s.latch.cw.extractLsb' 8 3 ≠ 0 → seqStep s = .next (Spec.failed s 3))

/-- A host write to CMD while BUSY = 0 latches the word with ARG0 and ARG1 and sets BUSY (R221). While BUSY = 1 it is an
overrun: ERR and IRQ_STATUS.ERR alone change in the block (R274). -/
def Obligations.CmdWriteLatchesOrOverruns : Prop :=
  ∀ (s : State) (ts : List Turn) (rest : List HostOp) (w : Word),
    s.agenda = .host :: ts → s.host = .write (Spec.regAddr s 5) .word w :: rest →
    step s = .next (
      if s.busy then
        { s with agenda := ts, host := rest
                 err := { code := 6, opc := w.extractLsb' 0 8, slot := w.extractLsb' 8 3 }
                 irqStatus := s.irqStatus ||| 0b0100#4 }
      else
        { s with agenda := ts, host := rest, busy := true, latch := { cw := w, a0 := s.arg0, a1 := s.arg1 } })

/-- Host writes to ARG0, ARG1, IRQ_EN (bits [3:0]) and IRQ_STATUS (a 1 clears its bit), whatever BUSY is
(R39, R40, R43, R45). -/
def Obligations.HostWritesReachTheirRegisters : Prop :=
  ∀ (s : State) (ts : List Turn) (rest : List HostOp) (v : Word), s.agenda = .host :: ts →
    (s.host = .write (Spec.regAddr s 3) .word v :: rest →
      step s = .next { s with agenda := ts, host := rest, arg0 := v }) ∧
    (s.host = .write (Spec.regAddr s 4) .word v :: rest →
      step s = .next { s with agenda := ts, host := rest, arg1 := v }) ∧
    (s.host = .write (Spec.regAddr s 7) .word v :: rest →
      step s = .next { s with agenda := ts, host := rest, irqEn := v.setWidth 4 }) ∧
    (s.host = .write (Spec.regAddr s 8) .word v :: rest →
      step s = .next { s with agenda := ts, host := rest, irqStatus := s.irqStatus &&& ~~~(v.setWidth 4) })

/-- A write to a read-only register or a reserved offset has no effect; a read of any offset changes no state of the block
and answers the register there; CMD and reserved offsets, buffer words beyond N_FRAMES among them, read 0
(R34, R41, R62, R89). -/
def Obligations.AccessRulesOfTheRegisterMap : Prop :=
  ∀ (s : State) (ts : List Turn) (rest : List HostOp) (v : Word) (k : Nat), s.agenda = .host :: ts → k < 0x1000 →
    (s.host = .write (Spec.regAddr s k) .word v :: rest → k ≠ 3 → k ≠ 4 → k ≠ 5 → k ≠ 7 → k ≠ 8 →
      step s = .next { s with agenda := ts, host := rest }) ∧
    (s.host = .read (Spec.regAddr s k) .word :: rest →
      step s = .next { s with agenda := ts, host := rest, reads := s.reads ++ [readReg s (regAt k)] }) ∧
    (k = 5 ∨ (13 ≤ k ∧ k < 0x40) ∨ (0x90 ≤ k ∧ k < 0x400) ∨ (0x40 ≤ k ∧ k < 0x90 ∧ 10 ≤ (k - 0x40) % 16) ∨
        (0x400 ≤ k ∧ nFrames s.build ≤ (k - 0x400) % 0x400) →
      readReg s (regAt k) = 0)

/-- A host access inside the window that is not 32 bits wide at a multiple of 4 is refused as a bus error; one that is
reaches the register at its offset (R86). -/
def Obligations.OtherAccessesAreBusErrors : Prop :=
  ∀ (s : State) (addr : Word) (w : Width) (v mask : Word), (addr - s.build.mmioBase).toNat < 0x4000 →
    ((w ≠ .word ∨ (addr - s.build.mmioBase).toNat % 4 ≠ 0) →
      hostAction (.read addr w) s = .refused .busError ∧ hostAction (.write addr w v) s = .refused .busError) ∧
    ((addr - s.build.mmioBase).toNat % 4 ≠ 0 → hostAction (.poll addr mask v) s = .refused .busError) ∧
    ((addr - s.build.mmioBase).toNat % 4 = 0 →
      hostAction (.read addr .word) s = .next (s.answer (readReg s (regAt ((addr - s.build.mmioBase).toNat / 4)))) ∧
      hostAction (.write addr .word v) s = .next (writeReg s (regAt ((addr - s.build.mmioBase).toNat / 4)) v))

/-- The assembler's wait reads the register once a turn, and goes on exactly when the masked value is the one asked for
(R109). -/
def Obligations.WaitReadsUntilTheValueIsThere : Prop :=
  ∀ (s : State) (ts : List Turn) (rest : List HostOp) (mask value : Word) (k : Nat), s.agenda = .host :: ts → k < 0x1000 →
    s.host = .poll (Spec.regAddr s k) mask value :: rest →
    step s = .next { s with
      agenda := ts
      host := if readReg s (regAt k) &&& mask = value then rest else s.host
      reads := s.reads ++ [readReg s (regAt k)] }

/-- A host store to sample memory outside every bound data region puts its byte there and nowhere else; inside one it is
given no step (R307, R315, C8). -/
def Obligations.SampleStoreWritesItsByteOnly : Prop :=
  ∀ (s : State) (ts : List Turn) (rest : List HostOp) (addr : Word) (v : Byte), s.agenda = .host :: ts →
    s.host = .store addr v :: rest →
    ((∀ i : Fin 5, (s.slot i).bound = true →
        addr.toNat < (s.slot i).base.toNat ∨ (s.slot i).base.toNat + (s.slot i).len.toNat ≤ addr.toNat) →
      Memory.wf s.mem = true →
      ∃ m, step s = .next { s with agenda := ts, host := rest, mem := m } ∧ Memory.wf m = true ∧
        ∀ x, cellAt m x = if x = addr.toNat then v else cellAt s.mem x) ∧
    ((∃ i : Fin 5, (s.slot i).bound = true ∧ (s.slot i).base.toNat ≤ addr.toNat ∧
        addr.toNat < (s.slot i).base.toNat + (s.slot i).len.toNat) →
      step s = .refused .racingSampleWrite)

/-- A turn given to an agent that has no step changes nothing but the agenda (R220, R251, R253, R254); with an empty agenda
and no agent that can step, SEQ stuck on a read that is not admitted among them (R82), the machine stands still. -/
def Obligations.TurnWithoutStepChangesNothing : Prop :=
  ∀ (s : State) (ts : List Turn),
    (s.agenda = .seq :: ts → s.busy = false → step s = .next { s with agenda := ts }) ∧
    (s.agenda = .dma :: ts → (s.dma.run = false ∨ s.dma.wait = true) → step s = .next { s with agenda := ts }) ∧
    (s.agenda = .host :: ts → s.host = [] → step s = .next { s with agenda := ts }) ∧
    (s.agenda = [] → s.host = [] → s.busy = false → (s.dma.run = false ∨ s.dma.wait = true) → step s = .next s) ∧
    (∀ i f, s.agenda = [] → s.host = [] → s.busy = true → decode s.latch.cw = .ok i → exec i s = .fault f →
      (s.dma.run = false ∨ s.dma.wait = true) → step s = .next s)

/-- The DMA step emits one frame word, BUF[PTR][IDX], and advances IDX; on the last frame it ends the buffer: IDX = 0,
WAIT = 1, EVT = 1 and the cause CONSUMED (R251, R252, R256). Nothing else changes. -/
def Obligations.DmaStepEmitsOneFrame : Prop :=
  ∀ (s : State) (ts : List Turn), s.agenda = .dma :: ts → s.dma.run = true → s.dma.wait = false →
    (s.dma.idx.toNat + 1 < nFrames s.build →
      step s = .next { s with
        agenda := ts
        tx := s.tx ++ [(s.txBuf s.dma.ptr).getD s.dma.idx.toNat 0]
        dma := { s.dma with idx := s.dma.idx + 1 } }) ∧
    (s.dma.idx.toNat + 1 = nFrames s.build →
      step s = .next { s with
        agenda := ts
        tx := s.tx ++ [(s.txBuf s.dma.ptr).getD s.dma.idx.toNat 0]
        dma := { s.dma with idx := 0, wait := true }
        evt := true
        irqStatus := s.irqStatus ||| 0b0001#4 })

/-- Between two swaps the DMA emits each word of BUF[PTR] exactly once, in index order, and then waits (R257 law 1): the run
of N_FRAMES DMA turns from frame 0 of a buffer. -/
def Obligations.DmaDrainsItsBufferInOrder : Prop :=
  ∀ (s : State) (ts : List Turn), s.BuffersInv → s.agenda = List.replicate (nFrames s.build) .dma ++ ts →
    s.dma.run = true → s.dma.wait = false → s.dma.idx = 0 →
    runSteps (nFrames s.build) s = .next { s with
      agenda := ts
      tx := s.tx ++ s.txBuf s.dma.ptr
      dma := { s.dma with idx := 0, wait := true }
      evt := true
      irqStatus := s.irqStatus ||| 0b0001#4 }

/-! ## Engine commands (R223 to R233) -/

/-- NOP (R223) and STOP (R226): RESULT = 0; STOP also clears RUN, WAIT, IDX and EVT and goes to Idle. Everything else, the
buffers, SEL, PTR, LASTMIX and every slot among it, is kept. -/
def Obligations.NopAndStopComplete : Prop :=
  ∀ s : State,
    exec .nop s = .next (Spec.completed s 0) ∧
    exec .stop s = .next (Spec.completed
      { s with dma := { run := false, wait := false, ptr := s.dma.ptr, idx := 0 }, evt := false, mode := .idle } 0)

/-- CLEAR_ALL (R231): every slot goes to the unbound state; nothing else but RESULT changes. -/
def Obligations.ClearAllEmptiesEverySlot : Prop :=
  ∀ s : State, ∃ t, exec .clearAll s = .next t ∧ (∀ i, t.slot i = Slot.unbound) ∧
    t = Spec.completed { s with slots := t.slots } 0

/-- SET_RATE_MODE (R233, R272): BAD_STATE outside Idle whatever the operand; in Idle 22050 and 44100 set RATE_MODE to 0
and 1, and any other operand is BAD_ARG. -/
def Obligations.SetRateModeChecksStateThenOperand : Prop :=
  ∀ s : State,
    (s.mode = .idle → s.latch.a0 = 22050#32 →
      exec .setRateMode s = .next (Spec.completed { s with rateMode := .hz22050 } 0)) ∧
    (s.mode = .idle → s.latch.a0 = 44100#32 →
      exec .setRateMode s = .next (Spec.completed { s with rateMode := .hz44100 } 0)) ∧
    (s.mode = .idle → s.latch.a0 ≠ 22050#32 → s.latch.a0 ≠ 44100#32 → exec .setRateMode s = .next (Spec.failed s 5)) ∧
    (s.mode ≠ .idle → exec .setRateMode s = .next (Spec.failed s 4))

/-- START (R224, R225, R209, R273). In Idle with every bound slot's region readable: the frames of N_FRAMES mixes from the
slots' current positions go to BUF[A], those of the next N_FRAMES to BUF[B], and with PRIME_STAGING = 1 those after them to
STAGE; the DMA runs from frame 0 of buffer A. Outside Idle: BAD_STATE. -/
def Obligations.StartPrimesTheBuffersAndStreams : Prop :=
  ∀ s : State,
    (s.mode = .idle → s.SlotsReadable →
      ∃ fa fb fc : Filled,
        Spec.Fills s.build s.mem s.mvol s.slots fa ∧
        Spec.Fills s.build s.mem s.mvol fa.slots fb ∧
        (if s.build.primeStaging then Spec.Fills s.build s.mem s.mvol fb.slots fc
          else fc = { words := s.stage, slots := fb.slots, lastMix := fb.lastMix }) ∧
        exec .start s = .next (Spec.completed
          { s with bufA := fa.words, bufB := fb.words, stage := fc.words, slots := fc.slots, lastMix := fc.lastMix
                   sel := .a, evt := false, dma := { run := true, wait := false, ptr := .a, idx := 0 }
                   mode := .streaming } 0)) ∧
    (s.mode ≠ .idle → exec .start s = .next (Spec.failed s 4))

/-- TICK (R227 to R230, R209). Without the event, or outside Streaming, it returns 0 and changes nothing else. Active, with
every bound slot's region readable: SEL and PTR flip to the other buffer together, the buffer just freed takes STAGE's words,
STAGE takes the frames of N_FRAMES new mixes, and RESULT and FINISHED say whether the last mix had no contributing slot. -/
def Obligations.TickSwapsCopiesAndRemixes : Prop :=
  ∀ s : State,
    ((s.mode ≠ .streaming ∨ s.evt = false) → exec .tick s = .next (Spec.completed s 0)) ∧
    (s.mode = .streaming → s.evt = true → s.SlotsReadable →
      ∃ f : Filled, Spec.Fills s.build s.mem s.mvol s.slots f ∧
        exec .tick s = .next
          { s with
            sel := s.sel.other
            dma := { run := s.dma.run, wait := false, ptr := s.sel.other, idx := 0 }
            evt := false
            bufA := if s.sel = .a then s.stage else s.bufA
            bufB := if s.sel = .b then s.stage else s.bufB
            stage := f.words
            slots := f.slots
            lastMix := f.lastMix
            result := if f.lastMix = 0 then 1 else 0
            irqStatus := s.irqStatus ||| (if f.lastMix = 0 then 0b1010#4 else 0b1000#4)
            busy := false })

/-- STOP, CLEAR_ALL and SET_MASTER_VOL 1.0q restore the reset state of the engine's mode, event, DMA (but PTR), master
volume and slots (R301). -/
def Obligations.StopClearAllAndFullVolumeRestoreReset : Prop :=
  ∀ (s : State) (a1 : Word) (d : Nat), ∃ s1 s2 s3,
    exec .stop s = .next s1 ∧ exec .clearAll s1 = .next s2 ∧
    exec .setMasterVol { s2 with latch := { cw := 0x5, a0 := 0x10000, a1 := a1 } } = .next s3 ∧
    s3.mode = (State.resetWith s.build d).mode ∧ s3.evt = (State.resetWith s.build d).evt ∧
    s3.dma = { (State.resetWith s.build d).dma with ptr := s.dma.ptr } ∧
    s3.mvol = (State.resetWith s.build d).mvol ∧ s3.slots = (State.resetWith s.build d).slots ∧
    s3.busy = (State.resetWith s.build d).busy

/-! ## Slot commands (R140 to R150, R181) -/

/-- BIND (R140): a region that does not pass 2^32 makes the slot a fresh stream of it, whether or not it was bound; any other
is BAD_ARG. UNBIND (R141): the unbound state of R60, on a bound and on an unbound slot. -/
def Obligations.BindAndUnbindReplaceTheSlot : Prop :=
  ∀ (s : State) (i : Fin 5),
    (s.latch.a0.toNat + s.latch.a1.toNat ≤ 2 ^ 32 →
      exec (.bind (slotNo i)) s = .next (Spec.completed (Spec.withSlot s i
        { bound := true, paused := false, loop := false, dps := false, dpe := false, ds := false, first := true
          base := s.latch.a0, len := s.latch.a1, pos := 0, vol := 0x10000, rate := 0, acc := 0, last := 0, cnt := 0 }) 0)) ∧
    (2 ^ 32 < s.latch.a0.toNat + s.latch.a1.toNat → exec (.bind (slotNo i)) s = .next (Spec.failed s 5)) ∧
    exec (.unbind (slotNo i)) s = .next (Spec.completed (Spec.withSlot s i
      { bound := false, paused := false, loop := false, dps := false, dpe := false, ds := false, first := true
        base := 0, len := 0, pos := 0, vol := 0x10000, rate := 0, acc := 0, last := 0, cnt := 0 }) 0)

/-- SET_MASTER_VOL (R232) and SET_VOL (R142): the volume becomes the operand, read as s32, clamped to 0 .. 0x1_0000; no
operand is an error. -/
def Obligations.VolumeCommandsClamp : Prop :=
  ∀ s : State, ∃ v : Vol, (v.toNat : Int) = max 0 (min s.latch.a0.toInt 0x10000) ∧
    exec .setMasterVol s = .next (Spec.completed { s with mvol := v } 0) ∧
    ∀ i : Fin 5, (s.slot i).bound = true →
      exec (.setVol (slotNo i)) s = .next (Spec.completed (Spec.withSlot s i { s.slot i with vol := v }) 0)

/-- SET_LOOP (R143) and SET_DOWNSAMPLE (R147): operands 0 and 1 write the flag; any other is BAD_ARG. -/
def Obligations.FlagCommandsWriteTheirFlag : Prop :=
  ∀ (s : State) (i : Fin 5), (s.slot i).bound = true →
    (s.latch.a0.toNat < 2 →
      exec (.setLoop (slotNo i)) s =
        .next (Spec.completed (Spec.withSlot s i { s.slot i with loop := decide (s.latch.a0 = 1) }) 0) ∧
      exec (.setDownsample (slotNo i)) s =
        .next (Spec.completed (Spec.withSlot s i { s.slot i with ds := decide (s.latch.a0 = 1) }) 0)) ∧
    (2 ≤ s.latch.a0.toNat →
      exec (.setLoop (slotNo i)) s = .next (Spec.failed s 5) ∧
      exec (.setDownsample (slotNo i)) s = .next (Spec.failed s 5))

/-- SET_DEPOP (R146): bit 0 is the start enable and bit 1 the end enable; an operand above 3 is BAD_ARG. -/
def Obligations.SetDepopWritesBothEnables : Prop :=
  ∀ (s : State) (i : Fin 5), (s.slot i).bound = true →
    (s.latch.a0.toNat < 4 →
      exec (.setDepop (slotNo i)) s = .next (Spec.completed (Spec.withSlot s i
        { s.slot i with dps := decide (s.latch.a0.toNat % 2 = 1), dpe := decide (2 ≤ s.latch.a0.toNat) }) 0)) ∧
    (4 ≤ s.latch.a0.toNat → exec (.setDepop (slotNo i)) s = .next (Spec.failed s 5))

/-- PAUSE (R144), UNPAUSE (R145) and SEEK_START (R148): the flag, or POS = 0 and CNT = 0 with RESULT = 1; every other field
of the slot is kept. -/
def Obligations.PauseUnpauseAndSeekComplete : Prop :=
  ∀ (s : State) (i : Fin 5), (s.slot i).bound = true →
    exec (.pause (slotNo i)) s = .next (Spec.completed (Spec.withSlot s i { s.slot i with paused := true }) 0) ∧
    exec (.unpause (slotNo i)) s = .next (Spec.completed (Spec.withSlot s i { s.slot i with paused := false }) 0) ∧
    exec (.seekStart (slotNo i)) s = .next (Spec.completed (Spec.withSlot s i { s.slot i with pos := 0, cnt := 0 }) 1)

/-- SET_RATE (R181): RATE takes the operand, ACC goes to 0, and every other field is kept; every operand is legal. -/
def Obligations.SetRateTakesEveryRate : Prop :=
  ∀ (s : State) (i : Fin 5), (s.slot i).bound = true →
    exec (.setRate (slotNo i)) s =
      .next (Spec.completed (Spec.withSlot s i { s.slot i with rate := s.latch.a0, acc := 0 }) 0)

/-- FETCH (R149) on a bound slot whose region can be read: one rate step of the slot, its sample in RESULT with bit 16 set,
or RESULT = 0 for none; no other slot and no engine field changes. -/
def Obligations.FetchReturnsOneRateStep : Prop :=
  ∀ (s : State) (i : Fin 5), (s.slot i).bound = true → (s.slot i).Inv → (s.slot i).Readable s.build →
    ∃ (r : Option Sample) (c : Slot), rateStep s.build s.mem (s.slot i) = some (r, c) ∧
      exec (.fetch (slotNo i)) s = .next (Spec.completed (Spec.withSlot s i c)
        (match r with
         | some x => 0x10000#32 ||| x.setWidth 32
         | none => 0))

/-- The raw step (R130, R133 to R138): a slot with a sample left where it reads, after the rewind of step (1), gives the
little-endian sample there, attenuated, start de-popped and end de-popped, and records it; with none left it gives none and
reads nothing. FETCH of a plain sample (R134, R149, R152 law 3): at RATE = 0, full volume and no de-pop, a slot with at
least two bytes left that is not at its loop point gives the stored sample at POS, and POS, CNT, LAST and FIRST move on. -/
def Obligations.FetchOfPlainStreamReturnsTheStoredSample : Prop :=
  (∀ (b : Build) (m : List Host.Cell) (c : Slot) (b0 b1 : Byte), Spec.readPos c + 2 ≤ c.len.toNat →
    memRead b m (c.base.toNat + Spec.readPos c) = some b0 → memRead b m (c.base.toNat + Spec.readPos c + 1) = some b1 →
    ∃ y : Sample, y.toInt = Spec.shaped b c (b1 ++ b0).toInt ∧ rawStep b m c = some (some y, Spec.afterRawStep c y)) ∧
  (∀ (b : Build) (m : List Host.Cell) (c : Slot), c.len.toNat < Spec.readPos c + 2 →
    rawStep b m c = some (none, if Spec.Rewinds c then { c with pos := 0, cnt := 0 } else c)) ∧
  (∀ (s : State) (i : Fin 5) (b0 b1 : Byte), (s.slot i).bound = true → (s.slot i).rate = 0 →
    (s.slot i).vol = 0x10000 → (s.slot i).dps = false → (s.slot i).dpe = false →
    (s.slot i).pos.toNat + 2 ≤ (s.slot i).len.toNat →
    ((s.slot i).loop = true → (s.slot i).pos.toNat + 4 ≤ (s.slot i).len.toNat) →
    memRead s.build s.mem ((s.slot i).base.toNat + (s.slot i).pos.toNat) = some b0 →
    memRead s.build s.mem ((s.slot i).base.toNat + (s.slot i).pos.toNat + 1) = some b1 →
    exec (.fetch (slotNo i)) s = .next (Spec.completed
      (Spec.withSlot s i
        { s.slot i with
          first := false
          pos := (s.slot i).pos + 2
          last := b1 ++ b0
          cnt := if (s.slot i).cnt = 0xFFFFFFFF#32 then 0xFFFFFFFF#32 else (s.slot i).cnt + 1 })
      (0x10000#32 ||| (b1 ++ b0).setWidth 32)))

/-- SKIP (R139, R150) on a bound slot whose region can be read: raw steps until the count or a step without a sample, their
number in RESULT; ACC, RATE and FIRST are kept. A looping slot of at least one whole sample skips the whole count. The skip
itself is raw steps in a row, each on the slot the one before it left (R139). -/
def Obligations.SkipReturnsTheSamplesSkipped : Prop :=
  (∀ (s : State) (i : Fin 5), (s.slot i).bound = true → (s.slot i).Inv → (s.slot i).Readable s.build →
    ∃ (k : Nat) (c : Slot), skipN s.build s.mem s.latch.a0.toNat (s.slot i) = some (k, c) ∧
      exec (.skip (slotNo i)) s = .next (Spec.completed (Spec.withSlot s i c) (BitVec.ofNat 32 k)) ∧
      k ≤ s.latch.a0.toNat ∧ c = { s.slot i with pos := c.pos, cnt := c.cnt, last := c.last } ∧
      ((s.slot i).loop = true → 2 ≤ (s.slot i).len.toNat → k = s.latch.a0.toNat)) ∧
  (∀ (b : Build) (m : List Host.Cell) (n k : Nat) (c d : Slot), skipN b m n c = some (k, d) ↔
    k ≤ n ∧ ∃ v : Nat → Slot, v 0 = c ∧ (∀ j < k, ∃ x, rawStep b m (v j) = some (some x, v (j + 1))) ∧
      (if k = n then d = v k else rawStep b m (v k) = some (none, d)))

/-- BAD_SLOT (R102, R272): a slot command whose SLOT is 5, 6 or 7, whatever its operands and the state. -/
def Obligations.SlotsFiveToSevenAreBadSlot : Prop :=
  ∀ (s : State) (i : Instr) (n : BitVec 3), i.slotField = some n → 5 ≤ n.toNat → exec i s = .next (Spec.failed s 2)

/-- UNBOUND (R272, R273): a slot command other than BIND and UNBIND on an unbound slot, whatever its operands. -/
def Obligations.CommandsOnAnUnboundSlotAreUnbound : Prop :=
  ∀ (s : State) (i : Instr) (k : Fin 5), i.slotField = some (slotNo k) → i ≠ .bind (slotNo k) →
    i ≠ .unbind (slotNo k) → (s.slot k).bound = false → exec i s = .next (Spec.failed s 7)

/-! ## Over all commands -/

/-- Every step of SEQ, with or without an error, sets DONE and clears BUSY (R222), and loses no pending cause (R278); so does
every command. -/
def Obligations.EveryCommandCompletesWithDone : Prop :=
  (∀ s t : State, s.busy = true → seqStep s = .next t →
    t.busy = false ∧ t.irqStatus.getLsbD 3 = true ∧ s.irqStatus &&& t.irqStatus = s.irqStatus) ∧
  (∀ (i : Instr) (s t : State), exec i s = .next t →
    t.busy = false ∧ t.irqStatus.getLsbD 3 = true ∧ s.irqStatus &&& t.irqStatus = s.irqStatus)

/-- The effects of a command error (R275), and errors are precise (R270): a step of SEQ, and a command, either leaves ERR as
it was and does not set its cause, or changes nothing but ERR, the causes ERR and DONE, and BUSY. -/
def Obligations.CommandErrorsArePrecise : Prop :=
  (∀ s t : State, s.busy = true → seqStep s = .next t →
    (t.err = s.err ∧ t.irqStatus.getLsbD 2 = s.irqStatus.getLsbD 2) ∨
      ∃ e : BitVec 4, 1 ≤ e.toNat ∧ e.toNat ≤ 7 ∧ t = Spec.failed s e) ∧
  (∀ (i : Instr) (s t : State), exec i s = .next t →
    (t.err = s.err ∧ t.irqStatus.getLsbD 2 = s.irqStatus.getLsbD 2) ∨
      ∃ e : BitVec 4, 1 ≤ e.toNat ∧ e.toNat ≤ 7 ∧ t = Spec.failed s e)

/-- No command writes sample memory, the operand registers, the latch, IRQ_EN, TX, the parameters or the surroundings
(R8, R43, R49, R81, R251): every byte reads after it as before. -/
def Obligations.CommandsLeaveMemoryAndInputsAlone : Prop :=
  ∀ (i : Instr) (s t : State), exec i s = .next t →
    (∀ x, memRead t.build t.mem x = memRead s.build s.mem x) ∧ t.mem = s.mem ∧ t.build = s.build ∧
    t.arg0 = s.arg0 ∧ t.arg1 = s.arg1 ∧ t.latch = s.latch ∧ t.irqEn = s.irqEn ∧ t.tx = s.tx ∧
    t.host = s.host ∧ t.reads = s.reads ∧ t.agenda = s.agenda ∧ t.draws = s.draws

/-- A slot command writes only its own slot (R140 to R150, R181): every other slot, the engine registers, the DMA and the
buffers are as before. -/
def Obligations.SlotCommandsWriteOnlyTheirSlot : Prop :=
  ∀ (i : Instr) (n : BitVec 3) (s t : State), i.slotField = some n → exec i s = .next t →
    (∀ k : Fin 5, k.val ≠ n.toNat → t.slot k = s.slot k) ∧
    t.mode = s.mode ∧ t.sel = s.sel ∧ t.evt = s.evt ∧ t.rateMode = s.rateMode ∧ t.lastMix = s.lastMix ∧
    t.mvol = s.mvol ∧ t.dma = s.dma ∧ t.bufA = s.bufA ∧ t.bufB = s.bufB ∧ t.stage = s.stage

/-- The engine never writes the buffer the hardware owns (R63, R235 item 1): after any command of a streaming engine the
buffer SEL then names holds what it held before. -/
def Obligations.HardwareOwnedBufferIsNeverWritten : Prop :=
  ∀ (i : Instr) (s t : State), s.mode = .streaming → exec i s = .next t → t.txBuf t.sel = s.txBuf t.sel

/-- Only START and STOP change the engine state, and a command leaves it Idle or Streaming (R35, R234). -/
def Obligations.OnlyStartAndStopChangeTheEngineState : Prop :=
  ∀ (i : Instr) (s t : State), s.mode ≠ .priming → exec i s = .next t →
    t.mode ≠ .priming ∧ (i ≠ .start → i ≠ .stop → t.mode = s.mode) ∧ (i = .stop → t.mode = .idle) ∧
      (i = .start → t.mode = .streaming)

/-! ## The sample path (R133 to R138, R152) -/

/-- The attenuator (R136): trunc0(x * V, 65536) below 1.0, the sample unchanged at 1.0; no result is narrowed. -/
def Obligations.AttenuatorIsExact : Prop :=
  ∀ (x : Sample) (v : Vol), v.toNat ≤ 0x10000 →
    (attenuate x v).toInt = if v.toNat < 0x10000 then (x.toInt * v.toNat).tdiv 65536 else x.toInt

/-- Start and end de-pop (R137, R138): the average with LAST while CNT is below the threshold, and the ramp over the last
DEPOP_END_BYTES bytes; otherwise the sample unchanged. No result is narrowed. -/
def Obligations.DepopArithmeticIsExact : Prop :=
  ∀ (b : Build) (c : Slot) (x : Sample),
    (startDepop b c x).toInt =
      (if c.dps = true ∧ c.cnt.toNat < b.depopStartN.toNat then (x.toInt + c.last.toInt).tdiv 2 else x.toInt) ∧
    (endDepop b c x).toInt =
      (if c.dpe = true ∧ c.rem < depopEndBytes b then (x.toInt * c.rem).tdiv (depopEndBytes b) else x.toInt)

/-- With looping on and at least one whole sample, every raw step of a readable region returns a sample (R152 law 1). The
rewind (R130 steps (1) and (7), R133): the last sample of a pass leaves POS = 0 and CNT = 0 and is kept in LAST; a slot that
starts exhausted rewinds first, its step being that of the slot with POS = 0 and CNT = 0. -/
def Obligations.LoopingSlotAlwaysGivesASample : Prop :=
  ∀ (b : Build) (m : List Host.Cell) (c : Slot), c.loop = true →
    (c.Inv → c.Readable b → 2 ≤ c.len.toNat →
      ∃ (x : Sample) (c1 : Slot), rawStep b m c = some (some x, c1) ∧ c1.ended = false ∧ c1.Inv) ∧
    (c.pos.toNat + 2 ≤ c.len.toNat → c.len.toNat < c.pos.toNat + 4 → ∀ x c1, rawStep b m c = some (some x, c1) →
      c1 = { c with pos := 0, cnt := 0, last := x }) ∧
    (c.len.toNat < c.pos.toNat + 2 → rawStep b m c = rawStep b m { c with pos := 0, cnt := 0 })

/-- Without looping, the raw steps after a rewind return at most floor(LEN / 2) samples (R152 law 2). -/
def Obligations.UnloopedPassGivesAtMostHalfTheBytes : Prop :=
  ∀ (b : Build) (m : List Host.Cell) (c c1 : Slot) (n k : Nat), c.loop = false → c.pos = 0 →
    skipN b m n c = some (k, c1) → k ≤ c.len.toNat / 2

/-! ## The resampler (R183 to R189) -/

/-- A rate step of an ended slot returns none and changes nothing, in every mode; it reads nothing (R187). -/
def Obligations.EndedSlotGivesNothing : Prop :=
  ∀ (b : Build) (m : List Host.Cell) (c : Slot), c.bound = true → c.len.toNat ≤ c.pos.toNat → c.loop = false →
    rateStep b m c = some (none, c)

/-- The first rate step of a stream is a raw step in every mode, and clears FIRST; it leaves ACC alone (R186). -/
def Obligations.FirstRateStepIsPlain : Prop :=
  ∀ (b : Build) (m : List Host.Cell) (c : Slot), c.ended = false → c.first = true →
    rateStep b m c = rawStep b m { c with first := false } ∧
      ∀ r c1, rateStep b m c = some (r, c1) → c1.first = false ∧ c1.acc = c.acc ∧ c1.rate = c.rate

/-- Skip mode (R184): k = floor(ACC + RATE) raw steps are skipped, the fraction is kept in ACC, and one raw step follows. -/
def Obligations.SkipModeDropsTheWholeUnits : Prop :=
  ∀ (b : Build) (m : List Host.Cell) (c c1 : Slot) (r : Option Sample), c.ended = false → c.first = false →
    0 < c.rate.toInt → c.acc.toNat < 0x10000 → rateStep b m c = some (r, c1) →
    c1.acc.toNat = (c.acc.toNat + c.rate.toNat) % 65536 ∧ c1.rate = c.rate ∧
    ∃ (j : Nat) (c0 : Slot),
      skipN b m ((c.acc.toNat + c.rate.toNat) / 65536) { c with acc := c1.acc } = some (j, c0) ∧
      rawStep b m c0 = some (r, c1)

/-- Repeat mode (R185): when sat_u32(ACC + q) reaches 1.0 the last sample is emitted again, nothing is read, and ACC falls by
1.0; below 1.0 it is a raw step with ACC = ACC + q. -/
def Obligations.RepeatModeReemitsTheLastSample : Prop :=
  ∀ (b : Build) (m : List Host.Cell) (c : Slot), c.ended = false → c.first = false → c.rate.toInt < 0 →
    (65536 ≤ c.acc.toNat + c.rate.toInt.natAbs →
      ∃ a : Word, rateStep b m c = some (some c.last, { c with acc := a }) ∧
        a.toNat = min (c.acc.toNat + c.rate.toInt.natAbs) (2 ^ 32 - 1) - 65536) ∧
    (c.acc.toNat + c.rate.toInt.natAbs < 65536 →
      ∃ a : Word, rateStep b m c = rawStep b m { c with acc := a } ∧ a.toNat = c.acc.toNat + c.rate.toInt.natAbs)

/-- The mode-switch law (R189): SET_RATE r and then SET_RATE 0 leave the slot as it was but for RATE = 0 and ACC = 0, and its
later rate steps are raw steps. -/
def Obligations.RateRoundTripLosesNothing : Prop :=
  ∀ (s : State) (i : Fin 5) (r a1 : Word), (s.slot i).bound = true → ∃ s1 s2,
    exec (.setRate (slotNo i)) { s with latch := { cw := encode (.setRate (slotNo i)), a0 := r, a1 := a1 } } = .next s1 ∧
    exec (.setRate (slotNo i)) { s1 with latch := { cw := encode (.setRate (slotNo i)), a0 := 0, a1 := a1 } } = .next s2 ∧
    s2.slot i = { s.slot i with rate := 0, acc := 0 } ∧
    ∀ (b : Build) (m : List Host.Cell) (c : Slot), c.rate = 0 → c.ended = false →
      rateStep b m c = rawStep b m { c with first := false }

/-! ## The mixer (R201 to R210) -/

/-- The clipping unit (R207): a sum within the range is unchanged, one above gives 32767, one below gives CLIP_LO, which is
-32767 or -32768, the latter by default; it never wraps. -/
def Obligations.ClipNeverWraps : Prop :=
  (∀ (b : Build) (v : Int),
    (clip b v).toInt = max (if b.clipSym then -32767 else -32768) (min v 32767)) ∧
  State.reset.build.clipSym = false

/-- A slot that is unbound, paused or ended has no part in a mix: it gives nothing, is not read and does not change (R202),
in any number of mixes (R210 law 4: a paused slot keeps its position). A frame no slot contributes to is silence and counts
0 (R210 law 3), with no eligible slot and with eligible slots that give no sample. -/
def Obligations.IneligibleSlotsAreLeftAlone : Prop :=
  (∀ (b : Build) (m : List Host.Cell) (c : Slot), Spec.Skipped c → mixSlot b m c = some (none, c)) ∧
  ∀ (b : Build) (m : List Host.Cell) (mvol : Vol) (slots : Vector Slot 5),
    ((∀ k : Fin 5, Spec.Skipped slots[k.val]) → mix b m mvol slots = some { word := 0, slots := slots, count := 0 }) ∧
    ((∀ k : Fin 5, ∃ c, mixSlot b m slots[k.val] = some (none, c)) →
      ∃ x, mix b m mvol slots = some x ∧ x.word = 0 ∧ x.count = 0) ∧
    (∀ x, mix b m mvol slots = some x → ∀ k : Fin 5, Spec.Skipped slots[k.val] → x.slots[k.val] = slots[k.val]) ∧
    (∀ n last f, mixLoop b m mvol n slots last = some f →
      ∀ k : Fin 5, Spec.Skipped slots[k.val] → f.slots[k.val] = slots[k.val])

/-- The down-sampler (R203), on a slot that is bound, not paused and not ended (R202): with DS = 1 and at least 4 bytes left
one rate step is discarded before the kept one; with fewer left, or DS = 0, none is. -/
def Obligations.DownSamplerDiscardsOneStep : Prop :=
  ∀ (b : Build) (m : List Host.Cell) (c c1 : Slot) (r : Option Sample), ¬ Spec.Skipped c →
    (c.ds = true → c.pos.toNat + 4 ≤ c.len.toNat → rateStep b m c = some (r, c1) → mixSlot b m c = rateStep b m c1) ∧
    ((c.ds = false ∨ c.len.toNat < c.pos.toNat + 4) → mixSlot b m c = rateStep b m c)

/-- A frame (R201, R204 to R208): the left half, bits [15:0], is the clip of the exact sum of the even slots' samples, scaled
by the master volume, the right half, bits [31:16], that of the odd ones; each slot takes its own part, and the count is the
number of slots that gave a sample. Of one contributing slot at full master volume, the frame carries its sample on its
channel and 0 on the other (R210 law 2). -/
def Obligations.SingleSlotGoesToItsChannel : Prop :=
  (∀ (b : Build) (m : List Host.Cell) (mvol : Vol) (slots : Vector Slot 5) (r : Fin 5 → Option Sample) (c : Fin 5 → Slot),
    (∀ k : Fin 5, mixSlot b m slots[k.val] = some (r k, c k)) →
    ∃ x : Mixed, mix b m mvol slots = some x ∧ (∀ k : Fin 5, x.slots[k.val] = c k) ∧
      (x.word.extractLsb' 0 16).toInt =
        Spec.channelOf b mvol (Spec.given (r 0) + Spec.given (r 2) + Spec.given (r 4)) ∧
      (x.word.extractLsb' 16 16).toInt = Spec.channelOf b mvol (Spec.given (r 1) + Spec.given (r 3)) ∧
      x.count.toNat = [r 0, r 1, r 2, r 3, r 4].countP (·.isSome)) ∧
  (∀ (b : Build) (m : List Host.Cell) (slots : Vector Slot 5) (k : Fin 5) (x : Sample) (c : Slot),
    (∀ j : Fin 5, j ≠ k → Spec.Skipped slots[j.val]) → mixSlot b m slots[k.val] = some (some x, c) →
    (b.clipSym = true → x.toInt ≠ -32768) →
    mix b m 0x10000 slots = some
      { word := if k.val % 2 = 0 then 0#16 ++ x else x ++ 0#16
        slots := slots.set k.val c k.isLt
        count := 1 })

/-! ## Interrupts, registers and reset -/

/-- IRQ is 1 exactly while some cause is pending and enabled (R67, R278). -/
def Obligations.IrqIsTheOrOfEnabledCauses : Prop :=
  ∀ s : State, s.irq = true ↔ ∃ n < 4, s.irqStatus.getLsbD n = true ∧ s.irqEn.getLsbD n = true

/-- The fields of STATUS (R38), STATE by its codes 0 Idle, 1 Priming and 2 Streaming (R35), and of SFLAGS (R52) stand at
their bits; reserved bits read 0. -/
def Obligations.StatusAndFlagsWordsHoldTheirFields : Prop :=
  (∀ s : State,
    (readReg s .status).extractLsb' 0 2 =
      (match s.mode with
       | .idle => 0#2
       | .priming => 1#2
       | .streaming => 2#2) ∧
    (readReg s .status).getLsbD 2 = decide (s.sel = .b) ∧
    (readReg s .status).getLsbD 3 = s.evt ∧ (readReg s .status).getLsbD 4 = s.busy ∧
    (readReg s .status).getLsbD 5 = s.dma.run ∧ (readReg s .status).getLsbD 6 = s.dma.wait ∧
    (readReg s .status).getLsbD 7 = decide (s.rateMode = .hz44100) ∧
    (readReg s .status).extractLsb' 8 3 = s.lastMix ∧ (readReg s .status).getLsbD 11 = decide (s.dma.ptr = .b) ∧
    (readReg s .status).extractLsb' 12 20 = 0) ∧
  (∀ (s : State) (i : Fin 5),
    (readReg s (.slot i .sflags)).getLsbD 0 = (s.slot i).bound ∧
    (readReg s (.slot i .sflags)).getLsbD 1 = (s.slot i).paused ∧
    (readReg s (.slot i .sflags)).getLsbD 2 = (s.slot i).loop ∧
    (readReg s (.slot i .sflags)).getLsbD 3 = (s.slot i).dps ∧
    (readReg s (.slot i .sflags)).getLsbD 4 = (s.slot i).dpe ∧
    (readReg s (.slot i .sflags)).getLsbD 5 =
      ((s.slot i).bound && decide ((s.slot i).len.toNat ≤ (s.slot i).pos.toNat) && !(s.slot i).loop) ∧
    (readReg s (.slot i .sflags)).getLsbD 6 = (s.slot i).ds ∧
    (readReg s (.slot i .sflags)).getLsbD 7 = (s.slot i).first ∧
    (readReg s (.slot i .sflags)).extractLsb' 8 2 =
      (if (s.slot i).rate = 0 then 0 else if 0 < (s.slot i).rate.toInt then 1 else 2) ∧
    (readReg s (.slot i .sflags)).extractLsb' 10 22 = 0)

/-- The other registers read as their rules say: ID (R36), ARG0 and ARG1 (R39, R40), CMD as 0 (R41), RESULT (R42), IRQ_EN
and IRQ_STATUS (R43, R45), MVOL (R47), DMA_IDX (R48), PARAMS (R37), DEPOP_PARAMS (R44), ERR (R46), the slot words SBASE to
SREM (R51, R53 to R58), and word k of a buffer window, 0 at and beyond N_FRAMES (R62). -/
def Obligations.RegisterWordsHoldTheirFields : Prop :=
  (∀ s : State,
    readReg s .id = 0x4D580001 ∧ readReg s .arg0 = s.arg0 ∧ readReg s .arg1 = s.arg1 ∧ readReg s .cmd = 0 ∧
    readReg s .result = s.result ∧ (readReg s .irqEn).toNat = s.irqEn.toNat ∧
    (readReg s .irqStatus).toNat = s.irqStatus.toNat ∧ (readReg s .mvol).toNat = s.mvol.toNat ∧
    (readReg s .dmaIdx).toNat = s.dma.idx.toNat ∧
    (readReg s .params).extractLsb' 0 16 = BitVec.ofNat 16 (nFrames s.build) ∧
    (readReg s .params).extractLsb' 16 4 = 5#4 ∧ (readReg s .params).getLsbD 20 = s.build.primeStaging ∧
    (readReg s .params).getLsbD 21 = s.build.clipSym ∧ (readReg s .params).extractLsb' 22 10 = 0 ∧
    (readReg s .depopParams).extractLsb' 0 16 = s.build.depopStartN ∧
    (readReg s .depopParams).extractLsb' 16 16 = BitVec.ofNat 16 (depopEndBytes s.build) ∧
    (readReg s .err).extractLsb' 0 4 = s.err.code ∧ (readReg s .err).extractLsb' 4 4 = 0 ∧
    (readReg s .err).extractLsb' 8 8 = s.err.opc ∧ (readReg s .err).extractLsb' 16 3 = s.err.slot ∧
    (readReg s .err).extractLsb' 19 13 = 0) ∧
  (∀ (s : State) (i : Fin 5),
    readReg s (.slot i .sbase) = (s.slot i).base ∧ readReg s (.slot i .slen) = (s.slot i).len ∧
    readReg s (.slot i .spos) = (s.slot i).pos ∧ (readReg s (.slot i .svol)).toNat = (s.slot i).vol.toNat ∧
    readReg s (.slot i .srate) = (s.slot i).rate ∧ readReg s (.slot i .sacc) = (s.slot i).acc ∧
    readReg s (.slot i .scnt) = (s.slot i).cnt ∧
    (readReg s (.slot i .slast)).toInt = (s.slot i).last.toInt ∧
    (readReg s (.slot i .srem)).toNat = (s.slot i).len.toNat - (s.slot i).pos.toNat) ∧
  (∀ (s : State) (k : Nat),
    readReg s (.bufA k) = (if k < nFrames s.build then s.bufA.getD k 0 else 0) ∧
    readReg s (.bufB k) = (if k < nFrames s.build then s.bufB.getD k 0 else 0) ∧
    readReg s (.stage k) = (if k < nFrames s.build then s.stage.getD k 0 else 0))

/-- What a host reads right after reset (R300), for every build: the values that table gives. -/
def Obligations.ResetRegistersReadAsSpecified : Prop :=
  ∀ (b : Build) (d : Nat),
    readReg (State.resetWith b d) .id = 0x4D580001 ∧ readReg (State.resetWith b d) .mvol = 0x10000 ∧
    (∀ r ∈ [Reg.status, .arg0, .arg1, .cmd, .result, .irqEn, .irqStatus, .err, .dmaIdx],
      readReg (State.resetWith b d) r = 0) ∧
    (readReg (State.resetWith b d) .params).toNat =
      (b.lastFrame.val + 1) + 5 * 2 ^ 16 + b.primeStaging.toNat * 2 ^ 20 + b.clipSym.toNat * 2 ^ 21 ∧
    (readReg (State.resetWith b d) .depopParams).toNat = b.depopStartN.toNat + (b.depopEndPred.val + 1) * 2 ^ 16 ∧
    (∀ i : Fin 5, (State.resetWith b d).slot i = Slot.unbound ∧
      readReg (State.resetWith b d) (.slot i .sflags) = 0x80 ∧
      readReg (State.resetWith b d) (.slot i .svol) = 0x10000) ∧
    (State.resetWith b d).irq = false ∧ (State.resetWith b d).tx = [] ∧
    (State.resetWith b d).latch = { cw := 0, a0 := 0, a1 := 0 }

/-- The reset input (R301): from every state, busy or not, the block goes to the state of R300 at once, for some draw of the
buffers, and a latched command is discarded; sample memory and the host are not part of the block. -/
def Obligations.ResetTurnGivesTheResetState : Prop :=
  ∀ (s : State) (ts : List Turn), s.agenda = .reset :: ts →
    step s = .next { State.resetWith s.build s.draws with mem := s.mem, host := s.host, reads := s.reads, agenda := ts }

/-- The state after reset meets the invariant, for every build. -/
def Obligations.ResetMeetsTheInvariant : Prop := ∀ (b : Build) (d : Nat), (State.resetWith b d).Inv

/-- Every step of every agent keeps the invariant: the slots (R50, R53, R54, R56, R60), EVT = dma.WAIT (R253), the owned
buffer (R63), the engine states (R35), the buffers' size (R62) and sample memory's form. -/
def Obligations.EveryStepKeepsTheInvariant : Prop := ∀ s t : State, s.Inv → step s = .next t → t.Inv

/-- When SEQ is stuck (R82, R220). A byte can be read exactly where the platform admits it. A raw step has no answer exactly
where it needs a byte that is not admitted. FETCH whose rate step takes a raw step, SKIP at any of its raw steps, and START
in Idle and an active TICK for any eligible slot, then end in the fault of a stuck SEQ. While every bound slot's region can
be read, no step of any agent faults (R276). -/
def Obligations.ReadableSlotsNeverStickTheSequencer : Prop :=
  (∀ s : State, s.Inv → s.SlotsReadable → ∀ f, step s ≠ .fault f) ∧
  (∀ (b : Build) (m : List Host.Cell) (x : Nat), memRead b m x = if Spec.Admitted b x then some (cellAt m x) else none) ∧
  (∀ (b : Build) (m : List Host.Cell) (c : Slot), rawStep b m c = none ↔ Spec.NextRawStepStuck b c) ∧
  (∀ (s : State) (i : Fin 5), (s.slot i).bound = true →
    (Spec.TakesRawStep (s.slot i) → Spec.NextRawStepStuck s.build (s.slot i) →
      exec (.fetch (slotNo i)) s = .fault .sampleReadNotAdmitted) ∧
    (∀ j < s.latch.a0.toNat, ∀ c, skipN s.build s.mem j (s.slot i) = some (j, c) → Spec.NextRawStepStuck s.build c →
      exec (.skip (slotNo i)) s = .fault .sampleReadNotAdmitted)) ∧
  (∀ (s : State) (i : Fin 5), ¬ Spec.Skipped (s.slot i) → Spec.TakesRawStep (s.slot i) →
    Spec.NextRawStepStuck s.build (s.slot i) →
    (s.mode = .idle → exec .start s = .fault .sampleReadNotAdmitted) ∧
    (s.mode = .streaming → s.evt = true → exec .tick s = .fault .sampleReadNotAdmitted))
end

