-- ==== Sys2Proof/Laws/State.lean ====
section
/-! SUPPORT. What each named update of the state does to each field: one lemma per field per update, so that no proof
unfolds a record update. -/

namespace Sys2Proof.Machine

variable (s : State)

/-! ## setSlot -/

@[simp] theorem State.setSlot_mode (i : Fin 5) (c : Slot) : (s.setSlot i c).mode = s.mode := rfl
@[simp] theorem State.setSlot_sel (i : Fin 5) (c : Slot) : (s.setSlot i c).sel = s.sel := rfl
@[simp] theorem State.setSlot_evt (i : Fin 5) (c : Slot) : (s.setSlot i c).evt = s.evt := rfl
@[simp] theorem State.setSlot_busy (i : Fin 5) (c : Slot) : (s.setSlot i c).busy = s.busy := rfl
@[simp] theorem State.setSlot_rateMode (i : Fin 5) (c : Slot) : (s.setSlot i c).rateMode = s.rateMode := rfl
@[simp] theorem State.setSlot_lastMix (i : Fin 5) (c : Slot) : (s.setSlot i c).lastMix = s.lastMix := rfl
@[simp] theorem State.setSlot_arg0 (i : Fin 5) (c : Slot) : (s.setSlot i c).arg0 = s.arg0 := rfl
@[simp] theorem State.setSlot_arg1 (i : Fin 5) (c : Slot) : (s.setSlot i c).arg1 = s.arg1 := rfl
@[simp] theorem State.setSlot_result (i : Fin 5) (c : Slot) : (s.setSlot i c).result = s.result := rfl
@[simp] theorem State.setSlot_irqEn (i : Fin 5) (c : Slot) : (s.setSlot i c).irqEn = s.irqEn := rfl
@[simp] theorem State.setSlot_irqStatus (i : Fin 5) (c : Slot) : (s.setSlot i c).irqStatus = s.irqStatus := rfl
@[simp] theorem State.setSlot_err (i : Fin 5) (c : Slot) : (s.setSlot i c).err = s.err := rfl
@[simp] theorem State.setSlot_mvol (i : Fin 5) (c : Slot) : (s.setSlot i c).mvol = s.mvol := rfl
@[simp] theorem State.setSlot_latch (i : Fin 5) (c : Slot) : (s.setSlot i c).latch = s.latch := rfl
@[simp] theorem State.setSlot_slots (i : Fin 5) (c : Slot) : (s.setSlot i c).slots = s.slots.set i.val c i.isLt := rfl
@[simp] theorem State.setSlot_dma (i : Fin 5) (c : Slot) : (s.setSlot i c).dma = s.dma := rfl
@[simp] theorem State.setSlot_bufA (i : Fin 5) (c : Slot) : (s.setSlot i c).bufA = s.bufA := rfl
@[simp] theorem State.setSlot_bufB (i : Fin 5) (c : Slot) : (s.setSlot i c).bufB = s.bufB := rfl
@[simp] theorem State.setSlot_stage (i : Fin 5) (c : Slot) : (s.setSlot i c).stage = s.stage := rfl
@[simp] theorem State.setSlot_tx (i : Fin 5) (c : Slot) : (s.setSlot i c).tx = s.tx := rfl
@[simp] theorem State.setSlot_build (i : Fin 5) (c : Slot) : (s.setSlot i c).build = s.build := rfl
@[simp] theorem State.setSlot_mem (i : Fin 5) (c : Slot) : (s.setSlot i c).mem = s.mem := rfl
@[simp] theorem State.setSlot_host (i : Fin 5) (c : Slot) : (s.setSlot i c).host = s.host := rfl
@[simp] theorem State.setSlot_reads (i : Fin 5) (c : Slot) : (s.setSlot i c).reads = s.reads := rfl
@[simp] theorem State.setSlot_agenda (i : Fin 5) (c : Slot) : (s.setSlot i c).agenda = s.agenda := rfl
@[simp] theorem State.setSlot_draws (i : Fin 5) (c : Slot) : (s.setSlot i c).draws = s.draws := rfl

/-! ## setCause -/

@[simp] theorem State.setCause_mode (c : Cause) : (s.setCause c).mode = s.mode := rfl
@[simp] theorem State.setCause_sel (c : Cause) : (s.setCause c).sel = s.sel := rfl
@[simp] theorem State.setCause_evt (c : Cause) : (s.setCause c).evt = s.evt := rfl
@[simp] theorem State.setCause_busy (c : Cause) : (s.setCause c).busy = s.busy := rfl
@[simp] theorem State.setCause_rateMode (c : Cause) : (s.setCause c).rateMode = s.rateMode := rfl
@[simp] theorem State.setCause_lastMix (c : Cause) : (s.setCause c).lastMix = s.lastMix := rfl
@[simp] theorem State.setCause_arg0 (c : Cause) : (s.setCause c).arg0 = s.arg0 := rfl
@[simp] theorem State.setCause_arg1 (c : Cause) : (s.setCause c).arg1 = s.arg1 := rfl
@[simp] theorem State.setCause_result (c : Cause) : (s.setCause c).result = s.result := rfl
@[simp] theorem State.setCause_irqEn (c : Cause) : (s.setCause c).irqEn = s.irqEn := rfl
@[simp] theorem State.setCause_irqStatus (c : Cause) : (s.setCause c).irqStatus = s.irqStatus ||| c.mask := rfl
@[simp] theorem State.setCause_err (c : Cause) : (s.setCause c).err = s.err := rfl
@[simp] theorem State.setCause_mvol (c : Cause) : (s.setCause c).mvol = s.mvol := rfl
@[simp] theorem State.setCause_latch (c : Cause) : (s.setCause c).latch = s.latch := rfl
@[simp] theorem State.setCause_slots (c : Cause) : (s.setCause c).slots = s.slots := rfl
@[simp] theorem State.setCause_dma (c : Cause) : (s.setCause c).dma = s.dma := rfl
@[simp] theorem State.setCause_bufA (c : Cause) : (s.setCause c).bufA = s.bufA := rfl
@[simp] theorem State.setCause_bufB (c : Cause) : (s.setCause c).bufB = s.bufB := rfl
@[simp] theorem State.setCause_stage (c : Cause) : (s.setCause c).stage = s.stage := rfl
@[simp] theorem State.setCause_tx (c : Cause) : (s.setCause c).tx = s.tx := rfl
@[simp] theorem State.setCause_build (c : Cause) : (s.setCause c).build = s.build := rfl
@[simp] theorem State.setCause_mem (c : Cause) : (s.setCause c).mem = s.mem := rfl
@[simp] theorem State.setCause_host (c : Cause) : (s.setCause c).host = s.host := rfl
@[simp] theorem State.setCause_reads (c : Cause) : (s.setCause c).reads = s.reads := rfl
@[simp] theorem State.setCause_agenda (c : Cause) : (s.setCause c).agenda = s.agenda := rfl
@[simp] theorem State.setCause_draws (c : Cause) : (s.setCause c).draws = s.draws := rfl

/-! ## complete -/

@[simp] theorem State.complete_mode : (s.complete).mode = s.mode := rfl
@[simp] theorem State.complete_sel : (s.complete).sel = s.sel := rfl
@[simp] theorem State.complete_evt : (s.complete).evt = s.evt := rfl
@[simp] theorem State.complete_busy : (s.complete).busy = false := rfl
@[simp] theorem State.complete_rateMode : (s.complete).rateMode = s.rateMode := rfl
@[simp] theorem State.complete_lastMix : (s.complete).lastMix = s.lastMix := rfl
@[simp] theorem State.complete_arg0 : (s.complete).arg0 = s.arg0 := rfl
@[simp] theorem State.complete_arg1 : (s.complete).arg1 = s.arg1 := rfl
@[simp] theorem State.complete_result : (s.complete).result = s.result := rfl
@[simp] theorem State.complete_irqEn : (s.complete).irqEn = s.irqEn := rfl
@[simp] theorem State.complete_irqStatus : (s.complete).irqStatus = s.irqStatus ||| Cause.done.mask := rfl
@[simp] theorem State.complete_err : (s.complete).err = s.err := rfl
@[simp] theorem State.complete_mvol : (s.complete).mvol = s.mvol := rfl
@[simp] theorem State.complete_latch : (s.complete).latch = s.latch := rfl
@[simp] theorem State.complete_slots : (s.complete).slots = s.slots := rfl
@[simp] theorem State.complete_dma : (s.complete).dma = s.dma := rfl
@[simp] theorem State.complete_bufA : (s.complete).bufA = s.bufA := rfl
@[simp] theorem State.complete_bufB : (s.complete).bufB = s.bufB := rfl
@[simp] theorem State.complete_stage : (s.complete).stage = s.stage := rfl
@[simp] theorem State.complete_tx : (s.complete).tx = s.tx := rfl
@[simp] theorem State.complete_build : (s.complete).build = s.build := rfl
@[simp] theorem State.complete_mem : (s.complete).mem = s.mem := rfl
@[simp] theorem State.complete_host : (s.complete).host = s.host := rfl
@[simp] theorem State.complete_reads : (s.complete).reads = s.reads := rfl
@[simp] theorem State.complete_agenda : (s.complete).agenda = s.agenda := rfl
@[simp] theorem State.complete_draws : (s.complete).draws = s.draws := rfl

/-! ## finish -/

@[simp] theorem State.finish_mode (r : Word) : (s.finish r).mode = s.mode := rfl
@[simp] theorem State.finish_sel (r : Word) : (s.finish r).sel = s.sel := rfl
@[simp] theorem State.finish_evt (r : Word) : (s.finish r).evt = s.evt := rfl
@[simp] theorem State.finish_busy (r : Word) : (s.finish r).busy = false := rfl
@[simp] theorem State.finish_rateMode (r : Word) : (s.finish r).rateMode = s.rateMode := rfl
@[simp] theorem State.finish_lastMix (r : Word) : (s.finish r).lastMix = s.lastMix := rfl
@[simp] theorem State.finish_arg0 (r : Word) : (s.finish r).arg0 = s.arg0 := rfl
@[simp] theorem State.finish_arg1 (r : Word) : (s.finish r).arg1 = s.arg1 := rfl
@[simp] theorem State.finish_result (r : Word) : (s.finish r).result = r := rfl
@[simp] theorem State.finish_irqEn (r : Word) : (s.finish r).irqEn = s.irqEn := rfl
@[simp] theorem State.finish_irqStatus (r : Word) : (s.finish r).irqStatus = s.irqStatus ||| Cause.done.mask := rfl
@[simp] theorem State.finish_err (r : Word) : (s.finish r).err = s.err := rfl
@[simp] theorem State.finish_mvol (r : Word) : (s.finish r).mvol = s.mvol := rfl
@[simp] theorem State.finish_latch (r : Word) : (s.finish r).latch = s.latch := rfl
@[simp] theorem State.finish_slots (r : Word) : (s.finish r).slots = s.slots := rfl
@[simp] theorem State.finish_dma (r : Word) : (s.finish r).dma = s.dma := rfl
@[simp] theorem State.finish_bufA (r : Word) : (s.finish r).bufA = s.bufA := rfl
@[simp] theorem State.finish_bufB (r : Word) : (s.finish r).bufB = s.bufB := rfl
@[simp] theorem State.finish_stage (r : Word) : (s.finish r).stage = s.stage := rfl
@[simp] theorem State.finish_tx (r : Word) : (s.finish r).tx = s.tx := rfl
@[simp] theorem State.finish_build (r : Word) : (s.finish r).build = s.build := rfl
@[simp] theorem State.finish_mem (r : Word) : (s.finish r).mem = s.mem := rfl
@[simp] theorem State.finish_host (r : Word) : (s.finish r).host = s.host := rfl
@[simp] theorem State.finish_reads (r : Word) : (s.finish r).reads = s.reads := rfl
@[simp] theorem State.finish_agenda (r : Word) : (s.finish r).agenda = s.agenda := rfl
@[simp] theorem State.finish_draws (r : Word) : (s.finish r).draws = s.draws := rfl

/-! ## recordError -/

@[simp] theorem State.recordError_mode (e : CmdError) (cw : Word) : (s.recordError e cw).mode = s.mode := rfl
@[simp] theorem State.recordError_sel (e : CmdError) (cw : Word) : (s.recordError e cw).sel = s.sel := rfl
@[simp] theorem State.recordError_evt (e : CmdError) (cw : Word) : (s.recordError e cw).evt = s.evt := rfl
@[simp] theorem State.recordError_busy (e : CmdError) (cw : Word) : (s.recordError e cw).busy = s.busy := rfl
@[simp] theorem State.recordError_rateMode (e : CmdError) (cw : Word) :
    (s.recordError e cw).rateMode = s.rateMode := rfl
@[simp] theorem State.recordError_lastMix (e : CmdError) (cw : Word) : (s.recordError e cw).lastMix = s.lastMix := rfl
@[simp] theorem State.recordError_arg0 (e : CmdError) (cw : Word) : (s.recordError e cw).arg0 = s.arg0 := rfl
@[simp] theorem State.recordError_arg1 (e : CmdError) (cw : Word) : (s.recordError e cw).arg1 = s.arg1 := rfl
@[simp] theorem State.recordError_result (e : CmdError) (cw : Word) : (s.recordError e cw).result = s.result := rfl
@[simp] theorem State.recordError_irqEn (e : CmdError) (cw : Word) : (s.recordError e cw).irqEn = s.irqEn := rfl
@[simp] theorem State.recordError_irqStatus (e : CmdError) (cw : Word) :
    (s.recordError e cw).irqStatus = s.irqStatus ||| Cause.err.mask := rfl
@[simp] theorem State.recordError_err (e : CmdError) (cw : Word) :
    (s.recordError e cw).err = { code := e.code, opc := opcOf cw, slot := slotOf cw } := rfl
@[simp] theorem State.recordError_mvol (e : CmdError) (cw : Word) : (s.recordError e cw).mvol = s.mvol := rfl
@[simp] theorem State.recordError_latch (e : CmdError) (cw : Word) : (s.recordError e cw).latch = s.latch := rfl
@[simp] theorem State.recordError_slots (e : CmdError) (cw : Word) : (s.recordError e cw).slots = s.slots := rfl
@[simp] theorem State.recordError_dma (e : CmdError) (cw : Word) : (s.recordError e cw).dma = s.dma := rfl
@[simp] theorem State.recordError_bufA (e : CmdError) (cw : Word) : (s.recordError e cw).bufA = s.bufA := rfl
@[simp] theorem State.recordError_bufB (e : CmdError) (cw : Word) : (s.recordError e cw).bufB = s.bufB := rfl
@[simp] theorem State.recordError_stage (e : CmdError) (cw : Word) : (s.recordError e cw).stage = s.stage := rfl
@[simp] theorem State.recordError_tx (e : CmdError) (cw : Word) : (s.recordError e cw).tx = s.tx := rfl
@[simp] theorem State.recordError_build (e : CmdError) (cw : Word) : (s.recordError e cw).build = s.build := rfl
@[simp] theorem State.recordError_mem (e : CmdError) (cw : Word) : (s.recordError e cw).mem = s.mem := rfl
@[simp] theorem State.recordError_host (e : CmdError) (cw : Word) : (s.recordError e cw).host = s.host := rfl
@[simp] theorem State.recordError_reads (e : CmdError) (cw : Word) : (s.recordError e cw).reads = s.reads := rfl
@[simp] theorem State.recordError_agenda (e : CmdError) (cw : Word) : (s.recordError e cw).agenda = s.agenda := rfl
@[simp] theorem State.recordError_draws (e : CmdError) (cw : Word) : (s.recordError e cw).draws = s.draws := rfl

/-! ## raiseError -/

@[simp] theorem State.raiseError_mode (e : CmdError) : (s.raiseError e).mode = s.mode := rfl
@[simp] theorem State.raiseError_sel (e : CmdError) : (s.raiseError e).sel = s.sel := rfl
@[simp] theorem State.raiseError_evt (e : CmdError) : (s.raiseError e).evt = s.evt := rfl
@[simp] theorem State.raiseError_busy (e : CmdError) : (s.raiseError e).busy = false := rfl
@[simp] theorem State.raiseError_rateMode (e : CmdError) : (s.raiseError e).rateMode = s.rateMode := rfl
@[simp] theorem State.raiseError_lastMix (e : CmdError) : (s.raiseError e).lastMix = s.lastMix := rfl
@[simp] theorem State.raiseError_arg0 (e : CmdError) : (s.raiseError e).arg0 = s.arg0 := rfl
@[simp] theorem State.raiseError_arg1 (e : CmdError) : (s.raiseError e).arg1 = s.arg1 := rfl
@[simp] theorem State.raiseError_result (e : CmdError) : (s.raiseError e).result = s.result := rfl
@[simp] theorem State.raiseError_irqEn (e : CmdError) : (s.raiseError e).irqEn = s.irqEn := rfl
@[simp] theorem State.raiseError_irqStatus (e : CmdError) :
    (s.raiseError e).irqStatus = s.irqStatus ||| Cause.err.mask ||| Cause.done.mask := rfl
@[simp] theorem State.raiseError_err (e : CmdError) :
    (s.raiseError e).err = { code := e.code, opc := opcOf s.latch.cw, slot := slotOf s.latch.cw } := rfl
@[simp] theorem State.raiseError_mvol (e : CmdError) : (s.raiseError e).mvol = s.mvol := rfl
@[simp] theorem State.raiseError_latch (e : CmdError) : (s.raiseError e).latch = s.latch := rfl
@[simp] theorem State.raiseError_slots (e : CmdError) : (s.raiseError e).slots = s.slots := rfl
@[simp] theorem State.raiseError_dma (e : CmdError) : (s.raiseError e).dma = s.dma := rfl
@[simp] theorem State.raiseError_bufA (e : CmdError) : (s.raiseError e).bufA = s.bufA := rfl
@[simp] theorem State.raiseError_bufB (e : CmdError) : (s.raiseError e).bufB = s.bufB := rfl
@[simp] theorem State.raiseError_stage (e : CmdError) : (s.raiseError e).stage = s.stage := rfl
@[simp] theorem State.raiseError_tx (e : CmdError) : (s.raiseError e).tx = s.tx := rfl
@[simp] theorem State.raiseError_build (e : CmdError) : (s.raiseError e).build = s.build := rfl
@[simp] theorem State.raiseError_mem (e : CmdError) : (s.raiseError e).mem = s.mem := rfl
@[simp] theorem State.raiseError_host (e : CmdError) : (s.raiseError e).host = s.host := rfl
@[simp] theorem State.raiseError_reads (e : CmdError) : (s.raiseError e).reads = s.reads := rfl
@[simp] theorem State.raiseError_agenda (e : CmdError) : (s.raiseError e).agenda = s.agenda := rfl
@[simp] theorem State.raiseError_draws (e : CmdError) : (s.raiseError e).draws = s.draws := rfl

/-! ## afterMix -/

@[simp] theorem State.afterMix_mode (f : Filled) : (s.afterMix f).mode = s.mode := rfl
@[simp] theorem State.afterMix_sel (f : Filled) : (s.afterMix f).sel = s.sel := rfl
@[simp] theorem State.afterMix_evt (f : Filled) : (s.afterMix f).evt = s.evt := rfl
@[simp] theorem State.afterMix_busy (f : Filled) : (s.afterMix f).busy = s.busy := rfl
@[simp] theorem State.afterMix_rateMode (f : Filled) : (s.afterMix f).rateMode = s.rateMode := rfl
@[simp] theorem State.afterMix_lastMix (f : Filled) : (s.afterMix f).lastMix = f.lastMix := rfl
@[simp] theorem State.afterMix_arg0 (f : Filled) : (s.afterMix f).arg0 = s.arg0 := rfl
@[simp] theorem State.afterMix_arg1 (f : Filled) : (s.afterMix f).arg1 = s.arg1 := rfl
@[simp] theorem State.afterMix_result (f : Filled) : (s.afterMix f).result = s.result := rfl
@[simp] theorem State.afterMix_irqEn (f : Filled) : (s.afterMix f).irqEn = s.irqEn := rfl
@[simp] theorem State.afterMix_irqStatus (f : Filled) : (s.afterMix f).irqStatus = s.irqStatus := rfl
@[simp] theorem State.afterMix_err (f : Filled) : (s.afterMix f).err = s.err := rfl
@[simp] theorem State.afterMix_mvol (f : Filled) : (s.afterMix f).mvol = s.mvol := rfl
@[simp] theorem State.afterMix_latch (f : Filled) : (s.afterMix f).latch = s.latch := rfl
@[simp] theorem State.afterMix_slots (f : Filled) : (s.afterMix f).slots = f.slots := rfl
@[simp] theorem State.afterMix_dma (f : Filled) : (s.afterMix f).dma = s.dma := rfl
@[simp] theorem State.afterMix_bufA (f : Filled) : (s.afterMix f).bufA = s.bufA := rfl
@[simp] theorem State.afterMix_bufB (f : Filled) : (s.afterMix f).bufB = s.bufB := rfl
@[simp] theorem State.afterMix_stage (f : Filled) : (s.afterMix f).stage = s.stage := rfl
@[simp] theorem State.afterMix_tx (f : Filled) : (s.afterMix f).tx = s.tx := rfl
@[simp] theorem State.afterMix_build (f : Filled) : (s.afterMix f).build = s.build := rfl
@[simp] theorem State.afterMix_mem (f : Filled) : (s.afterMix f).mem = s.mem := rfl
@[simp] theorem State.afterMix_host (f : Filled) : (s.afterMix f).host = s.host := rfl
@[simp] theorem State.afterMix_reads (f : Filled) : (s.afterMix f).reads = s.reads := rfl
@[simp] theorem State.afterMix_agenda (f : Filled) : (s.afterMix f).agenda = s.agenda := rfl
@[simp] theorem State.afterMix_draws (f : Filled) : (s.afterMix f).draws = s.draws := rfl

/-! ## emit -/

@[simp] theorem State.emit_mode (w : Word) : (s.emit w).mode = s.mode := rfl
@[simp] theorem State.emit_sel (w : Word) : (s.emit w).sel = s.sel := rfl
@[simp] theorem State.emit_evt (w : Word) : (s.emit w).evt = s.evt := rfl
@[simp] theorem State.emit_busy (w : Word) : (s.emit w).busy = s.busy := rfl
@[simp] theorem State.emit_rateMode (w : Word) : (s.emit w).rateMode = s.rateMode := rfl
@[simp] theorem State.emit_lastMix (w : Word) : (s.emit w).lastMix = s.lastMix := rfl
@[simp] theorem State.emit_arg0 (w : Word) : (s.emit w).arg0 = s.arg0 := rfl
@[simp] theorem State.emit_arg1 (w : Word) : (s.emit w).arg1 = s.arg1 := rfl
@[simp] theorem State.emit_result (w : Word) : (s.emit w).result = s.result := rfl
@[simp] theorem State.emit_irqEn (w : Word) : (s.emit w).irqEn = s.irqEn := rfl
@[simp] theorem State.emit_irqStatus (w : Word) : (s.emit w).irqStatus = s.irqStatus := rfl
@[simp] theorem State.emit_err (w : Word) : (s.emit w).err = s.err := rfl
@[simp] theorem State.emit_mvol (w : Word) : (s.emit w).mvol = s.mvol := rfl
@[simp] theorem State.emit_latch (w : Word) : (s.emit w).latch = s.latch := rfl
@[simp] theorem State.emit_slots (w : Word) : (s.emit w).slots = s.slots := rfl
@[simp] theorem State.emit_dma (w : Word) : (s.emit w).dma = s.dma := rfl
@[simp] theorem State.emit_bufA (w : Word) : (s.emit w).bufA = s.bufA := rfl
@[simp] theorem State.emit_bufB (w : Word) : (s.emit w).bufB = s.bufB := rfl
@[simp] theorem State.emit_stage (w : Word) : (s.emit w).stage = s.stage := rfl
@[simp] theorem State.emit_tx (w : Word) : (s.emit w).tx = s.tx ++ [w] := rfl
@[simp] theorem State.emit_build (w : Word) : (s.emit w).build = s.build := rfl
@[simp] theorem State.emit_mem (w : Word) : (s.emit w).mem = s.mem := rfl
@[simp] theorem State.emit_host (w : Word) : (s.emit w).host = s.host := rfl
@[simp] theorem State.emit_reads (w : Word) : (s.emit w).reads = s.reads := rfl
@[simp] theorem State.emit_agenda (w : Word) : (s.emit w).agenda = s.agenda := rfl
@[simp] theorem State.emit_draws (w : Word) : (s.emit w).draws = s.draws := rfl

/-! ## answer -/

@[simp] theorem State.answer_mode (v : Word) : (s.answer v).mode = s.mode := rfl
@[simp] theorem State.answer_sel (v : Word) : (s.answer v).sel = s.sel := rfl
@[simp] theorem State.answer_evt (v : Word) : (s.answer v).evt = s.evt := rfl
@[simp] theorem State.answer_busy (v : Word) : (s.answer v).busy = s.busy := rfl
@[simp] theorem State.answer_rateMode (v : Word) : (s.answer v).rateMode = s.rateMode := rfl
@[simp] theorem State.answer_lastMix (v : Word) : (s.answer v).lastMix = s.lastMix := rfl
@[simp] theorem State.answer_arg0 (v : Word) : (s.answer v).arg0 = s.arg0 := rfl
@[simp] theorem State.answer_arg1 (v : Word) : (s.answer v).arg1 = s.arg1 := rfl
@[simp] theorem State.answer_result (v : Word) : (s.answer v).result = s.result := rfl
@[simp] theorem State.answer_irqEn (v : Word) : (s.answer v).irqEn = s.irqEn := rfl
@[simp] theorem State.answer_irqStatus (v : Word) : (s.answer v).irqStatus = s.irqStatus := rfl
@[simp] theorem State.answer_err (v : Word) : (s.answer v).err = s.err := rfl
@[simp] theorem State.answer_mvol (v : Word) : (s.answer v).mvol = s.mvol := rfl
@[simp] theorem State.answer_latch (v : Word) : (s.answer v).latch = s.latch := rfl
@[simp] theorem State.answer_slots (v : Word) : (s.answer v).slots = s.slots := rfl
@[simp] theorem State.answer_dma (v : Word) : (s.answer v).dma = s.dma := rfl
@[simp] theorem State.answer_bufA (v : Word) : (s.answer v).bufA = s.bufA := rfl
@[simp] theorem State.answer_bufB (v : Word) : (s.answer v).bufB = s.bufB := rfl
@[simp] theorem State.answer_stage (v : Word) : (s.answer v).stage = s.stage := rfl
@[simp] theorem State.answer_tx (v : Word) : (s.answer v).tx = s.tx := rfl
@[simp] theorem State.answer_build (v : Word) : (s.answer v).build = s.build := rfl
@[simp] theorem State.answer_mem (v : Word) : (s.answer v).mem = s.mem := rfl
@[simp] theorem State.answer_host (v : Word) : (s.answer v).host = s.host := rfl
@[simp] theorem State.answer_reads (v : Word) : (s.answer v).reads = s.reads ++ [v] := rfl
@[simp] theorem State.answer_agenda (v : Word) : (s.answer v).agenda = s.agenda := rfl
@[simp] theorem State.answer_draws (v : Word) : (s.answer v).draws = s.draws := rfl

/-! ## setTxBuf -/

@[simp] theorem State.setTxBuf_mode (t : Buf) (ws : List Word) : (s.setTxBuf t ws).mode = s.mode := by cases t <;> rfl
@[simp] theorem State.setTxBuf_sel (t : Buf) (ws : List Word) : (s.setTxBuf t ws).sel = s.sel := by cases t <;> rfl
@[simp] theorem State.setTxBuf_evt (t : Buf) (ws : List Word) : (s.setTxBuf t ws).evt = s.evt := by cases t <;> rfl
@[simp] theorem State.setTxBuf_busy (t : Buf) (ws : List Word) : (s.setTxBuf t ws).busy = s.busy := by cases t <;> rfl
@[simp] theorem State.setTxBuf_rateMode (t : Buf) (ws : List Word) : (s.setTxBuf t ws).rateMode = s.rateMode := by cases t <;> rfl
@[simp] theorem State.setTxBuf_lastMix (t : Buf) (ws : List Word) : (s.setTxBuf t ws).lastMix = s.lastMix := by cases t <;> rfl
@[simp] theorem State.setTxBuf_arg0 (t : Buf) (ws : List Word) : (s.setTxBuf t ws).arg0 = s.arg0 := by cases t <;> rfl
@[simp] theorem State.setTxBuf_arg1 (t : Buf) (ws : List Word) : (s.setTxBuf t ws).arg1 = s.arg1 := by cases t <;> rfl
@[simp] theorem State.setTxBuf_result (t : Buf) (ws : List Word) : (s.setTxBuf t ws).result = s.result := by cases t <;> rfl
@[simp] theorem State.setTxBuf_irqEn (t : Buf) (ws : List Word) : (s.setTxBuf t ws).irqEn = s.irqEn := by cases t <;> rfl
@[simp] theorem State.setTxBuf_irqStatus (t : Buf) (ws : List Word) : (s.setTxBuf t ws).irqStatus = s.irqStatus := by cases t <;> rfl
@[simp] theorem State.setTxBuf_err (t : Buf) (ws : List Word) : (s.setTxBuf t ws).err = s.err := by cases t <;> rfl
@[simp] theorem State.setTxBuf_mvol (t : Buf) (ws : List Word) : (s.setTxBuf t ws).mvol = s.mvol := by cases t <;> rfl
@[simp] theorem State.setTxBuf_latch (t : Buf) (ws : List Word) : (s.setTxBuf t ws).latch = s.latch := by cases t <;> rfl
@[simp] theorem State.setTxBuf_slots (t : Buf) (ws : List Word) : (s.setTxBuf t ws).slots = s.slots := by cases t <;> rfl
@[simp] theorem State.setTxBuf_dma (t : Buf) (ws : List Word) : (s.setTxBuf t ws).dma = s.dma := by cases t <;> rfl
@[simp] theorem State.setTxBuf_a_bufA (ws : List Word) : (s.setTxBuf .a ws).bufA = ws := rfl
@[simp] theorem State.setTxBuf_b_bufA (ws : List Word) : (s.setTxBuf .b ws).bufA = s.bufA := rfl
@[simp] theorem State.setTxBuf_b_bufB (ws : List Word) : (s.setTxBuf .b ws).bufB = ws := rfl
@[simp] theorem State.setTxBuf_a_bufB (ws : List Word) : (s.setTxBuf .a ws).bufB = s.bufB := rfl
@[simp] theorem State.setTxBuf_stage (t : Buf) (ws : List Word) : (s.setTxBuf t ws).stage = s.stage := by cases t <;> rfl
@[simp] theorem State.setTxBuf_tx (t : Buf) (ws : List Word) : (s.setTxBuf t ws).tx = s.tx := by cases t <;> rfl
@[simp] theorem State.setTxBuf_build (t : Buf) (ws : List Word) : (s.setTxBuf t ws).build = s.build := by cases t <;> rfl
@[simp] theorem State.setTxBuf_mem (t : Buf) (ws : List Word) : (s.setTxBuf t ws).mem = s.mem := by cases t <;> rfl
@[simp] theorem State.setTxBuf_host (t : Buf) (ws : List Word) : (s.setTxBuf t ws).host = s.host := by cases t <;> rfl
@[simp] theorem State.setTxBuf_reads (t : Buf) (ws : List Word) : (s.setTxBuf t ws).reads = s.reads := by cases t <;> rfl
@[simp] theorem State.setTxBuf_agenda (t : Buf) (ws : List Word) : (s.setTxBuf t ws).agenda = s.agenda := by cases t <;> rfl
@[simp] theorem State.setTxBuf_draws (t : Buf) (ws : List Word) : (s.setTxBuf t ws).draws = s.draws := by cases t <;> rfl

/-! ## Reading back a slot or a buffer -/

@[simp] theorem State.slot_setSlot_same (i : Fin 5) (c : Slot) : (s.setSlot i c).slot i = c := by
  simp [State.slot]

theorem State.slot_setSlot_of_ne (i j : Fin 5) (c : Slot) (h : j ≠ i) : (s.setSlot i c).slot j = s.slot j := by
  have : i.val ≠ j.val := fun e => h (Fin.ext e.symm)
  simp [State.slot, this]

/-- Two states with the same slots hold the same slot. -/
theorem State.slot_congr {s t : State} (h : t.slots = s.slots) (i : Fin 5) : t.slot i = s.slot i := by
  simp [State.slot, h]

@[simp] theorem State.txBuf_setTxBuf_same (t : Buf) (ws : List Word) : (s.setTxBuf t ws).txBuf t = ws := by cases t <;> rfl

@[simp] theorem State.txBuf_setTxBuf_other (t : Buf) (ws : List Word) :
    (s.setTxBuf t.other ws).txBuf t = s.txBuf t := by cases t <;> rfl

@[simp] theorem Buf.other_other (t : Buf) : t.other.other = t := by cases t <;> rfl

/-- Two states with the same buffers hold the same transmit buffer. -/
theorem State.txBuf_congr {s t : State} (ha : t.bufA = s.bufA) (hb : t.bufB = s.bufB) (x : Buf) : t.txBuf x = s.txBuf x := by
  cases x
  · exact ha
  · exact hb

end Sys2Proof.Machine
end

