-- ==== Sys2Proof/Laws/Memory.lean ====
section
/-! SUPPORT. Sample memory: a byte read after a write, and that a write keeps the canonical form. -/

namespace Sys2Proof.Machine

theorem memoryWfFrom_cons (lo a : Nat) (v : Byte) (rest : List Host.Cell) :
    memoryWfFrom lo ((a, v) :: rest) = true ↔
      lo ≤ a ∧ a < 2 ^ 32 ∧ v ≠ unlistedByte ∧ memoryWfFrom (a + 1) rest = true := by
  simp [memoryWfFrom, and_assoc]

theorem memoryWfFrom_mono {lo hi : Nat} (h : lo ≤ hi) :
    ∀ m : List Host.Cell, memoryWfFrom hi m = true → memoryWfFrom lo m = true
  | [], _ => rfl
  | (a, v) :: rest, hm => by
    rw [memoryWfFrom_cons] at hm ⊢
    exact ⟨by omega, hm.2⟩

/-- An address below every listed one holds the unlisted byte. -/
theorem cellAt_below : ∀ (m : List Host.Cell) (lo x : Nat), memoryWfFrom lo m = true → x < lo → cellAt m x = unlistedByte
  | [], _, _, _, _ => rfl
  | (a, v) :: rest, lo, x, hm, hx => by
    rw [memoryWfFrom_cons] at hm
    have : a ≠ x := by omega
    simp only [cellAt, if_neg this]
    exact cellAt_below rest (a + 1) x hm.2.2.2 (by omega)

theorem cellAt_insertCell : ∀ (m : List Host.Cell) (x y : Nat) (w : Byte),
    cellAt (insertCell m x w) y = if y = x then w else cellAt m y
  | [], x, y, w => by
    by_cases h : y = x
    · simp [insertCell, cellAt, h]
    · simp [insertCell, cellAt, h, Ne.symm h]
  | (a, v) :: rest, x, y, w => by
    have ih := cellAt_insertCell rest x y w
    unfold insertCell
    split
    · by_cases h : y = x
      · simp [cellAt, h]
      · simp [cellAt, h, Ne.symm h]
    · split
      · next hax =>
        subst hax
        by_cases h : y = a
        · simp [cellAt, h]
        · simp [cellAt, h, Ne.symm h]
      · next hax =>
        simp only [cellAt, ih]
        by_cases hay : a = y
        · subst hay
          simp [hax]
        · simp [hay]

theorem insertCell_wf : ∀ (m : List Host.Cell) (lo x : Nat) (w : Byte), memoryWfFrom lo m = true → lo ≤ x → x < 2 ^ 32 →
    w ≠ unlistedByte → memoryWfFrom lo (insertCell m x w) = true
  | [], lo, x, w, _, hlo, hx, hw => by
    rw [insertCell, memoryWfFrom_cons]
    exact ⟨hlo, hx, hw, rfl⟩
  | (a, v) :: rest, lo, x, w, hm, hlo, hx, hw => by
    rw [memoryWfFrom_cons] at hm
    unfold insertCell
    split
    · rw [memoryWfFrom_cons, memoryWfFrom_cons]
      exact ⟨hlo, hx, hw, by omega, hm.2⟩
    · split
      · next h =>
        subst h
        rw [memoryWfFrom_cons]
        exact ⟨hlo, hx, hw, hm.2.2.2⟩
      · rw [memoryWfFrom_cons]
        exact ⟨hm.1, hm.2.1, hm.2.2.1, insertCell_wf rest (a + 1) x w hm.2.2.2 (by omega) hx hw⟩

theorem cellAt_dropCell : ∀ (m : List Host.Cell) (lo x y : Nat), memoryWfFrom lo m = true →
    cellAt (dropCell m x) y = if y = x then unlistedByte else cellAt m y
  | [], _, x, y, _ => by simp [dropCell, cellAt]
  | (a, v) :: rest, lo, x, y, hm => by
    rw [memoryWfFrom_cons] at hm
    have ih := cellAt_dropCell rest (a + 1) x y hm.2.2.2
    unfold dropCell
    split
    · next h =>
      subst h
      by_cases hy : y = a
      · subst hy
        simp [cellAt_below rest (y + 1) y hm.2.2.2 (by omega)]
      · simp [cellAt, hy, Ne.symm hy]
    · next h =>
      simp only [cellAt, ih]
      by_cases hay : a = y
      · subst hay
        simp [h]
      · simp [hay]

theorem dropCell_wf : ∀ (m : List Host.Cell) (lo x : Nat), memoryWfFrom lo m = true → memoryWfFrom lo (dropCell m x) = true
  | [], _, _, _ => rfl
  | (a, v) :: rest, lo, x, hm => by
    rw [memoryWfFrom_cons] at hm
    unfold dropCell
    split
    · exact memoryWfFrom_mono (by omega) rest hm.2.2.2
    · rw [memoryWfFrom_cons]
      exact ⟨hm.1, hm.2.1, hm.2.2.1, dropCell_wf rest (a + 1) x hm.2.2.2⟩

/-- Reading after a write: the byte written at its address, every other byte as before. -/
theorem cellAt_putCell (m : List Host.Cell) (x y : Nat) (w : Byte) (hm : Memory.wf m = true) :
    cellAt (putCell m x w) y = if y = x then w else cellAt m y := by
  unfold putCell
  split
  · next h => rw [h, cellAt_dropCell m 0 x y hm]
  · exact cellAt_insertCell m x y w

/-- A write to an address of the 32-bit space keeps the canonical form. -/
theorem putCell_wf (m : List Host.Cell) (x : Nat) (w : Byte) (hm : Memory.wf m = true) (hx : x < 2 ^ 32) :
    Memory.wf (putCell m x w) = true := by
  unfold putCell
  split
  · exact dropCell_wf m 0 x hm
  · next h => exact insertCell_wf m 0 x w hm (Nat.zero_le _) hx h

/-- Memory after reset is in canonical form. -/
theorem reset_memory_wf (b : Build) (d : Nat) : Memory.wf (State.resetWith b d).mem = true := rfl

end Sys2Proof.Machine
end

