-- ==== Sys2Proof/Laws/Arith.lean ====
section
/-! SUPPORT. The arithmetic primitives of R12: their ranges, and that narrowing an in-range value to int16 loses nothing. -/

namespace Sys2Proof.Machine

/-- An int16 value survives its 16-bit pattern. -/
theorem toInt_ofInt16 {v : Int} (lo : -32768 ≤ v) (hi : v ≤ 32767) : (BitVec.ofInt 16 v).toInt = v := by
  rw [BitVec.toInt_ofInt]
  simp only [Int.bmod]
  split <;> omega

theorem sample_range (x : Sample) : -32768 ≤ x.toInt ∧ x.toInt ≤ 32767 := by
  have h1 := BitVec.le_toInt x
  have h2 := BitVec.toInt_lt (x := x)
  constructor
  · simpa using h1
  · have : x.toInt < 32768 := by simpa using h2
    omega

/-- A quotient toward zero stays within bounds that hold zero. -/
theorem trunc0_mem {a b lo hi : Int} (hb : 0 < b) (hlo : lo ≤ 0) (hhi : 0 ≤ hi) (h1 : lo * b ≤ a) (h2 : a < (hi + 1) * b) :
    lo ≤ trunc0 a b ∧ trunc0 a b ≤ hi := by
  unfold trunc0
  by_cases ha : 0 ≤ a
  · rw [Int.tdiv_eq_ediv_of_nonneg ha]
    have h3 : 0 ≤ a / b := Int.ediv_nonneg ha hb.le
    have h4 : a / b < hi + 1 := Int.ediv_lt_of_lt_mul hb h2
    omega
  · obtain ⟨n, rfl⟩ : ∃ n, a = -n := ⟨-a, by omega⟩
    have hn : 0 ≤ n := by omega
    rw [Int.neg_tdiv, Int.tdiv_eq_ediv_of_nonneg hn]
    have h3 : 0 ≤ n / b := Int.ediv_nonneg hn hb.le
    have h4 : n / b ≤ -lo := by
      have : n < (-lo + 1) * b := by nlinarith
      have := Int.ediv_lt_of_lt_mul hb this
      omega
    omega

theorem clamp_mem {v lo hi : Int} (h : lo ≤ hi) : lo ≤ clamp v lo hi ∧ clamp v lo hi ≤ hi := by
  unfold clamp
  split
  · omega
  · split <;> omega

theorem clamp_eq (v lo hi : Int) (h : lo ≤ hi) : clamp v lo hi = max lo (min v hi) := by
  unfold clamp
  split
  · omega
  · split <;> omega

/-- The clamped volume operand as a number (R142, R232). -/
theorem vol_toNat (l : Latch) : ((l.vol).toNat : Int) = clamp l.a0.toInt 0 0x10000 := by
  have h := clamp_mem (v := l.a0.toInt) (lo := 0) (hi := 0x10000) (by omega)
  unfold Latch.vol
  rw [BitVec.toNat_ofInt]
  omega

theorem satU32_toNat (v : Nat) : (satU32 v).toNat = min v 0xFFFFFFFF := by
  unfold satU32
  rw [BitVec.toNat_ofNat]
  omega

theorem slotNo_toNat (i : Fin 5) : (slotNo i).toNat = i.val := by
  unfold slotNo
  rw [BitVec.toNat_ofNat]
  omega

end Sys2Proof.Machine
end

