-- ==== Sys2Proof/Laws/SamplePath.lean ====
section
/-! SUPPORT. The sample path: what a rewind, a raw step and a run of skips can do, that they keep the slot invariant, and
that a readable data region never leaves them without an answer. -/

namespace Sys2Proof.Machine

/-- `c1` differs from `c` at most in POS, CNT and LAST: what the raw step may write (R135). -/
def RawFrame (c c1 : Slot) : Prop := c1 = { c with pos := c1.pos, cnt := c1.cnt, last := c1.last }

theorem RawFrame.refl (c : Slot) : RawFrame c c := rfl

theorem RawFrame.trans {c c1 c2 : Slot} (h : RawFrame c c1) (h' : RawFrame c1 c2) : RawFrame c c2 := by
  unfold RawFrame at *
  rw [h', h]

theorem RawFrame.len {c c1 : Slot} (h : RawFrame c c1) : c1.len = c.len := by rw [h]
theorem RawFrame.base {c c1 : Slot} (h : RawFrame c c1) : c1.base = c.base := by rw [h]
theorem RawFrame.bound {c c1 : Slot} (h : RawFrame c c1) : c1.bound = c.bound := by rw [h]
theorem RawFrame.loop {c c1 : Slot} (h : RawFrame c c1) : c1.loop = c.loop := by rw [h]
theorem RawFrame.paused {c c1 : Slot} (h : RawFrame c c1) : c1.paused = c.paused := by rw [h]
theorem RawFrame.first {c c1 : Slot} (h : RawFrame c c1) : c1.first = c.first := by rw [h]
theorem RawFrame.rate {c c1 : Slot} (h : RawFrame c c1) : c1.rate = c.rate := by rw [h]
theorem RawFrame.acc {c c1 : Slot} (h : RawFrame c c1) : c1.acc = c.acc := by rw [h]

theorem RawFrame.readable {b : Build} {c c1 : Slot} (h : RawFrame c c1) (hr : c.Readable b) : c1.Readable b := by
  rw [h]
  exact hr

/-- The slot invariant reads, of the fields a raw step writes, only POS. -/
theorem RawFrame.inv {c c1 : Slot} (h : RawFrame c c1) (hi : c.Inv) (hp : c1.pos.toNat ≤ c.len.toNat)
    (hb : c.bound = false → c1 = c) : c1.Inv := by
  obtain ⟨h1, h2, h3, h4, h5⟩ := hi
  rw [h]
  refine ⟨h1, hp, h3, h4, fun hbd => ?_⟩
  have hbd' : c.bound = false := hbd
  rw [← h, hb hbd', h5 hbd']

/-! ## The rewind -/

theorem rewindIfDone_frame (c : Slot) : RawFrame c c.rewindIfDone := by
  unfold Slot.rewindIfDone
  split <;> rfl

theorem rewindIfDone_pos (c : Slot) : c.rewindIfDone.pos = c.pos ∨ c.rewindIfDone.pos = 0 := by
  unfold Slot.rewindIfDone
  split
  · exact .inr rfl
  · exact .inl rfl

theorem rewindIfDone_pos_le {c : Slot} (h : c.pos.toNat ≤ c.len.toNat) : c.rewindIfDone.pos.toNat ≤ c.len.toNat := by
  obtain h1 | h1 := rewindIfDone_pos c
  · rw [h1]
    exact h
  · rw [h1]
    exact Nat.zero_le _

/-- A slot that has a sample left, or does not loop, is not rewound. -/
theorem rewindIfDone_eq_self {c : Slot} (h : 2 ≤ c.rem ∨ c.loop = false) : c.rewindIfDone = c := by
  unfold Slot.rewindIfDone Slot.exhausted
  rw [if_neg]
  simp only [Bool.and_eq_true, decide_eq_true_eq]
  rintro ⟨h1, h2⟩
  obtain h | h := h
  · omega
  · simp [h] at h2

/-- A looping slot of at least one whole sample is never exhausted after the rewind. -/
theorem rewindIfDone_loop {c : Slot} (hl : c.loop = true) (h2 : 2 ≤ c.len.toNat) : c.rewindIfDone.exhausted = false := by
  unfold Slot.rewindIfDone
  split
  · simp [Slot.rewind, Slot.exhausted, Slot.rem]
    omega
  · next he => simpa [hl] using he

/-! ## Reading a sample -/

theorem readSample_pos {b : Build} {m : List Host.Cell} {c c1 : Slot} {x : Sample} (h : readSample b m c = some (x, c1)) :
    c1 = { c with pos := c.pos + 2 } := by
  unfold readSample at h
  split at h
  · simp only [Option.some.injEq, Prod.mk.injEq] at h
    exact h.2.symm
  · cases h

theorem memRead_of_admitted {b : Build} {m : List Host.Cell} {x : Nat} (h : admitted b x = true) :
    memRead b m x = some (cellAt m x) := by
  unfold memRead
  rw [if_pos h]

/-- In a readable region with at least two bytes left the sample is there. -/
theorem readSample_of_readable {b : Build} {m : List Host.Cell} {c : Slot} (hr : c.Readable b)
    (h : c.pos.toNat + 2 ≤ c.len.toNat) :
    ∃ x, readSample b m c = some (x, { c with pos := c.pos + 2 }) := by
  unfold readSample
  rw [memRead_of_admitted (hr c.pos.toNat (by omega)),
    show c.base.toNat + c.pos.toNat + 1 = c.base.toNat + (c.pos.toNat + 1) by omega,
    memRead_of_admitted (hr (c.pos.toNat + 1) (by omega))]
  exact ⟨_, rfl⟩

/-- A sample is not there exactly where one of its two bytes is not admitted (R82, R134). -/
theorem readSample_eq_none_iff {b : Build} {m : List Host.Cell} {c : Slot} :
    readSample b m c = none ↔ memRead b m (c.base.toNat + c.pos.toNat) = none ∨
      memRead b m (c.base.toNat + c.pos.toNat + 1) = none := by
  unfold readSample
  split
  · next h0 h1 => simp [h0, h1]
  · next h =>
    cases h0 : memRead b m (c.base.toNat + c.pos.toNat) with
    | none => simp
    | some b0 =>
      cases h1 : memRead b m (c.base.toNat + c.pos.toNat + 1) with
      | none => simp
      | some b1 => exact absurd h1 (h b0 b1 h0)

/-- POS + 2 does not wrap while two bytes are left. -/
theorem pos_add_two {c : Slot} (h : c.pos.toNat + 2 ≤ c.len.toNat) : (c.pos + 2#32).toNat = c.pos.toNat + 2 := by
  have := c.len.isLt
  rw [BitVec.toNat_add]
  simp
  omega

/-! ## The raw step -/

/-- All a raw step can do (R135): no sample and at most a rewind, or one sample read, shaped and recorded. -/
theorem rawStep_cases {b : Build} {m : List Host.Cell} {c c1 : Slot} {r : Option Sample}
    (h : rawStep b m c = some (r, c1)) :
    (c.rewindIfDone.exhausted = true ∧ r = none ∧ c1 = c.rewindIfDone) ∨
      ∃ x c0, c.rewindIfDone.exhausted = false ∧ readSample b m c.rewindIfDone = some (x, c0) ∧
        r = some (shapeSample b c0 x) ∧ c1 = (c0.record (shapeSample b c0 x)).rewindIfDone := by
  unfold rawStep at h
  split at h
  · next he =>
    simp only [Option.some.injEq, Prod.mk.injEq] at h
    exact .inl ⟨he, h.1.symm, h.2.symm⟩
  · next he =>
    split at h
    · cases h
    · next x c0 hx =>
      simp only [Option.some.injEq, Prod.mk.injEq] at h
      exact .inr ⟨x, c0, by simpa using he, hx, h.1.symm, h.2.symm⟩

theorem rawStep_frame {b : Build} {m : List Host.Cell} {c c1 : Slot} {r : Option Sample}
    (h : rawStep b m c = some (r, c1)) : RawFrame c c1 := by
  obtain ⟨-, -, rfl⟩ | ⟨x, c0, -, hx, -, rfl⟩ := rawStep_cases h
  · exact rewindIfDone_frame c
  · refine ((rewindIfDone_frame c).trans ?_).trans (rewindIfDone_frame _)
    rw [readSample_pos hx]
    rfl

/-- The unbound state has no byte, so a raw step returns none and changes nothing. -/
theorem rawStep_unbound (b : Build) (m : List Host.Cell) : rawStep b m Slot.unbound = some (none, Slot.unbound) := rfl

theorem rawStep_inv {b : Build} {m : List Host.Cell} {c c1 : Slot} {r : Option Sample} (hi : c.Inv)
    (h : rawStep b m c = some (r, c1)) : c1.Inv := by
  have hf := rawStep_frame h
  refine hf.inv hi ?_ fun hb => ?_
  · obtain ⟨-, -, rfl⟩ | ⟨x, c0, he, hx, -, rfl⟩ := rawStep_cases h
    · exact rewindIfDone_pos_le hi.2.1
    · have hlen : (c0.record (shapeSample b c0 x)).len = c.len := by
        rw [readSample_pos hx]
        exact (rewindIfDone_frame c).len
      rw [← hlen]
      refine rewindIfDone_pos_le ?_
      rw [hlen]
      have hp : (c0.record (shapeSample b c0 x)).pos = c.rewindIfDone.pos + 2 := by rw [readSample_pos hx]; rfl
      have hl : c.rewindIfDone.len = c.len := (rewindIfDone_frame c).len
      have he' : ¬ c.rewindIfDone.rem < 2 := of_decide_eq_false he
      unfold Slot.rem at he'
      rw [hl] at he'
      rw [hp, show (2 : Word) = 2#32 from rfl, pos_add_two (by rw [hl]; omega)]
      omega
  · rw [hi.2.2.2.2 hb, rawStep_unbound] at h
    simp only [Option.some.injEq, Prod.mk.injEq] at h
    rw [← h.2, hi.2.2.2.2 hb]

theorem rawStep_of_readable {b : Build} (m : List Host.Cell) {c : Slot} (hr : c.Readable b) :
    ∃ r c1, rawStep b m c = some (r, c1) := by
  unfold rawStep
  split
  · exact ⟨_, _, rfl⟩
  · next he =>
    have hl : c.rewindIfDone.len = c.len := (rewindIfDone_frame c).len
    have hlt : c.rewindIfDone.pos.toNat + 2 ≤ c.rewindIfDone.len.toNat := by
      have : ¬ c.rewindIfDone.rem < 2 := fun hlt => he (decide_eq_true hlt)
      unfold Slot.rem at this
      omega
    obtain ⟨x, hx⟩ := readSample_of_readable (m := m) ((rewindIfDone_frame c).readable hr) hlt
    rw [hx]
    exact ⟨_, _, rfl⟩

/-- A raw step has no answer exactly where a sample is left, after the rewind, and one of its bytes is not admitted (R82). -/
theorem rawStep_eq_none_iff {b : Build} {m : List Host.Cell} {c : Slot} :
    rawStep b m c = none ↔ c.rewindIfDone.exhausted = false ∧ readSample b m c.rewindIfDone = none := by
  unfold rawStep
  split
  · next he => simp [he]
  · next he =>
    split
    · next h => simp [h, he]
    · next h => simp [h]

/-- What one raw step gives where its sample can be read (R135). -/
theorem rawStep_of_read {b : Build} {m : List Host.Cell} {c c0 : Slot} {x : Sample} (he : c.rewindIfDone.exhausted = false)
    (h : readSample b m c.rewindIfDone = some (x, c0)) :
    rawStep b m c = some (some (shapeSample b c0 x), (c0.record (shapeSample b c0 x)).rewindIfDone) := by
  unfold rawStep
  simp [he, h]

/-- A raw step of a looping slot with at least one whole sample, if it answers, gives a sample. -/
theorem rawStep_loop {b : Build} {m : List Host.Cell} {c c1 : Slot} {r : Option Sample} (hl : c.loop = true)
    (h2 : 2 ≤ c.len.toNat) (h : rawStep b m c = some (r, c1)) : ∃ x, r = some x := by
  obtain ⟨he, -, -⟩ | ⟨x, c0, -, -, hr, -⟩ := rawStep_cases h
  · rw [rewindIfDone_loop hl h2] at he
    cases he
  · exact ⟨_, hr⟩

/-! ## Skipping -/

/-- All one more skip can do: end at a step without a sample, or go on after one. -/
theorem skipN_succ {b : Build} {m : List Host.Cell} {n k : Nat} {c c2 : Slot} (h : skipN b m (n + 1) c = some (k, c2)) :
    (rawStep b m c = some (none, c2) ∧ k = 0) ∨
      ∃ x c1 j, rawStep b m c = some (some x, c1) ∧ skipN b m n c1 = some (j, c2) ∧ k = j + 1 := by
  simp only [skipN] at h
  split at h
  · cases h
  · next c1 h1 =>
    simp only [Option.some.injEq, Prod.mk.injEq] at h
    exact .inl ⟨by rw [h1, h.2], h.1.symm⟩
  · next x c1 h1 =>
    split at h
    · cases h
    · next j c2' h2 =>
      simp only [Option.some.injEq, Prod.mk.injEq] at h
      exact .inr ⟨x, c1, j, h1, by rw [h2, h.2], h.1.symm⟩

theorem skipN_frame {b : Build} {m : List Host.Cell} : ∀ {n k : Nat} {c c1 : Slot},
    skipN b m n c = some (k, c1) → RawFrame c c1
  | 0, k, c, c1, h => by
    simp only [skipN, Option.some.injEq, Prod.mk.injEq] at h
    rw [← h.2]
    exact .refl c
  | n + 1, k, c, c2, h => by
    obtain ⟨h1, -⟩ | ⟨x, c1, j, h1, h2, -⟩ := skipN_succ h
    · exact rawStep_frame h1
    · exact (rawStep_frame h1).trans (skipN_frame h2)

theorem skipN_inv {b : Build} {m : List Host.Cell} : ∀ {n k : Nat} {c c1 : Slot}, c.Inv →
    skipN b m n c = some (k, c1) → c1.Inv
  | 0, k, c, c1, hi, h => by
    simp only [skipN, Option.some.injEq, Prod.mk.injEq] at h
    rw [← h.2]
    exact hi
  | n + 1, k, c, c2, hi, h => by
    obtain ⟨h1, -⟩ | ⟨x, c1, j, h1, h2, -⟩ := skipN_succ h
    · exact rawStep_inv hi h1
    · exact skipN_inv (rawStep_inv hi h1) h2

theorem skipN_le {b : Build} {m : List Host.Cell} : ∀ {n k : Nat} {c c1 : Slot}, skipN b m n c = some (k, c1) → k ≤ n
  | 0, k, c, c1, h => by
    simp only [skipN, Option.some.injEq, Prod.mk.injEq] at h
    omega
  | n + 1, k, c, c2, h => by
    obtain ⟨-, rfl⟩ | ⟨x, c1, j, -, h2, rfl⟩ := skipN_succ h
    · exact Nat.zero_le _
    · have := skipN_le h2
      omega

theorem skipN_of_readable {b : Build} (m : List Host.Cell) : ∀ (n : Nat) {c : Slot}, c.Readable b →
    ∃ k c1, skipN b m n c = some (k, c1)
  | 0, c, _ => ⟨0, c, rfl⟩
  | n + 1, c, hr => by
    obtain ⟨r, c1, h1⟩ := rawStep_of_readable m hr
    cases r with
    | none => exact ⟨0, c1, by simp [skipN, h1]⟩
    | some x =>
      obtain ⟨k, c2, h2⟩ := skipN_of_readable m n ((rawStep_frame h1).readable hr)
      exact ⟨k + 1, c2, by simp [skipN, h1, h2]⟩

end Sys2Proof.Machine
end

