-- ==== Sys2Proof/Laws/Resampler.lean ====
section
/-! SUPPORT. The resampler: what a rate step can do, that it keeps the slot invariant, and that a readable data region never
leaves it without an answer. -/

namespace Sys2Proof.Machine

/-- `c1` differs from `c` at most in POS, CNT, LAST, ACC and FIRST: what the rate step may write (R183). -/
def RateFrame (c c1 : Slot) : Prop :=
  c1 = { c with pos := c1.pos, cnt := c1.cnt, last := c1.last, acc := c1.acc, first := c1.first }

theorem RateFrame.refl (c : Slot) : RateFrame c c := rfl

theorem RateFrame.trans {c c1 c2 : Slot} (h : RateFrame c c1) (h' : RateFrame c1 c2) : RateFrame c c2 := by
  unfold RateFrame at *
  rw [h', h]

theorem RawFrame.toRateFrame {c c1 : Slot} (h : RawFrame c c1) : RateFrame c c1 := by
  unfold RateFrame
  rw [h]

theorem RateFrame.len {c c1 : Slot} (h : RateFrame c c1) : c1.len = c.len := by rw [h]
theorem RateFrame.base {c c1 : Slot} (h : RateFrame c c1) : c1.base = c.base := by rw [h]
theorem RateFrame.bound {c c1 : Slot} (h : RateFrame c c1) : c1.bound = c.bound := by rw [h]
theorem RateFrame.loop {c c1 : Slot} (h : RateFrame c c1) : c1.loop = c.loop := by rw [h]
theorem RateFrame.paused {c c1 : Slot} (h : RateFrame c c1) : c1.paused = c.paused := by rw [h]
theorem RateFrame.rate {c c1 : Slot} (h : RateFrame c c1) : c1.rate = c.rate := by rw [h]

theorem RateFrame.readable {b : Build} {c c1 : Slot} (h : RateFrame c c1) (hr : c.Readable b) : c1.Readable b := by
  rw [h]
  exact hr

/-- The slot a skip step skips from (R184): the fraction kept in ACC. -/
def skipStart (c : Slot) : Slot :=
  { c with acc := BitVec.ofNat 32 ((c.acc.toNat + c.rate.toInt.toNat) % 0x10000) }

/-- All a skip step can do (R184): the whole units are skipped, then one raw step. -/
theorem skipStep_cases {b : Build} {m : List Host.Cell} {c c2 : Slot} {r : Option Sample}
    (h : skipStep b m c = some (r, c2)) :
    ∃ k c1, skipN b m ((c.acc.toNat + c.rate.toInt.toNat) / 0x10000) (skipStart c) = some (k, c1) ∧
      rawStep b m c1 = some (r, c2) := by
  unfold skipStep at h
  split at h
  · cases h
  · next k c1 h1 => exact ⟨k, c1, h1, h⟩

/-- All a rate step can do (R183): the ended test, the first sample, then one of the three modes. -/
theorem rateStep_cases {b : Build} {m : List Host.Cell} {c c1 : Slot} {r : Option Sample}
    (h : rateStep b m c = some (r, c1)) :
    (c.ended = true ∧ r = none ∧ c1 = c) ∨
    (c.ended = false ∧ c.first = true ∧ rawStep b m { c with first := false } = some (r, c1)) ∨
    (c.ended = false ∧ c.first = false ∧ 0 < c.rate.toInt ∧ skipStep b m c = some (r, c1)) ∨
    (c.ended = false ∧ c.first = false ∧ c.rate.toInt < 0 ∧ repeatStep b m c = some (r, c1)) ∨
    (c.ended = false ∧ c.first = false ∧ c.rate.toInt = 0 ∧ rawStep b m c = some (r, c1)) := by
  unfold rateStep at h
  split at h
  · next he =>
    simp only [Option.some.injEq, Prod.mk.injEq] at h
    exact .inl ⟨he, h.1.symm, h.2.symm⟩
  · next he =>
    have he' : c.ended = false := by simpa using he
    split at h
    · next hf => exact .inr (.inl ⟨he', hf, h⟩)
    · next hf =>
      have hf' : c.first = false := by simpa using hf
      split at h
      · next hp => exact .inr (.inr (.inl ⟨he', hf', hp, h⟩))
      · next hp =>
        split at h
        · next hn => exact .inr (.inr (.inr (.inl ⟨he', hf', hn, h⟩)))
        · next hn => exact .inr (.inr (.inr (.inr ⟨he', hf', by omega, h⟩)))

theorem skipStep_frame {b : Build} {m : List Host.Cell} {c c1 : Slot} {r : Option Sample}
    (h : skipStep b m c = some (r, c1)) : RateFrame c c1 := by
  obtain ⟨k, c0, h1, h2⟩ := skipStep_cases h
  have h0 : RateFrame c (skipStart c) := rfl
  exact (h0.trans (skipN_frame h1).toRateFrame).trans (rawStep_frame h2).toRateFrame

theorem repeatStep_frame {b : Build} {m : List Host.Cell} {c c1 : Slot} {r : Option Sample}
    (h : repeatStep b m c = some (r, c1)) : RateFrame c c1 := by
  unfold repeatStep at h
  split at h
  · simp only [Option.some.injEq, Prod.mk.injEq] at h
    rw [← h.2]
    rfl
  · have h0 : RateFrame c { c with acc := BitVec.ofNat 32 (repeatAcc c) } := rfl
    exact h0.trans (rawStep_frame h).toRateFrame

theorem rateStep_frame {b : Build} {m : List Host.Cell} {c c1 : Slot} {r : Option Sample}
    (h : rateStep b m c = some (r, c1)) : RateFrame c c1 := by
  obtain ⟨-, -, rfl⟩ | ⟨-, -, h⟩ | ⟨-, -, -, h⟩ | ⟨-, -, -, h⟩ | ⟨-, -, -, h⟩ := rateStep_cases h
  · exact .refl c1
  · have h0 : RateFrame c { c with first := false } := rfl
    exact h0.trans (rawStep_frame h).toRateFrame
  · exact skipStep_frame h
  · exact repeatStep_frame h
  · exact (rawStep_frame h).toRateFrame

/-- A rate step of a bound slot keeps the slot invariant. -/
theorem rateStep_inv {b : Build} {m : List Host.Cell} {c c1 : Slot} {r : Option Sample} (hi : c.Inv) (hb : c.bound = true)
    (h : rateStep b m c = some (r, c1)) : c1.Inv := by
  obtain ⟨h1, h2, h3, h4, -⟩ := hi
  obtain ⟨-, -, rfl⟩ | ⟨-, -, h⟩ | ⟨-, -, hp, h⟩ | ⟨-, -, hn, h⟩ | ⟨-, -, -, h⟩ := rateStep_cases h
  · exact ⟨h1, h2, h3, h4, fun hb' => by rw [hb] at hb'; cases hb'⟩
  · exact rawStep_inv (c := { c with first := false }) ⟨h1, h2, h3, h4, fun hb' => by simp [hb] at hb'⟩ h
  · obtain ⟨k, c0, hs, hr⟩ := skipStep_cases h
    refine rawStep_inv (skipN_inv ?_ hs) hr
    refine ⟨h1, h2, h3, fun _ => ?_, fun hb' => by simp [skipStart, hb] at hb'⟩
    have : (c.acc.toNat + c.rate.toInt.toNat) % 0x10000 < 0x10000 := Nat.mod_lt _ (by omega)
    simp only [skipStart, BitVec.toNat_ofNat]
    omega
  · unfold repeatStep at h
    split at h
    · simp only [Option.some.injEq, Prod.mk.injEq] at h
      rw [← h.2]
      exact ⟨h1, h2, h3, fun hp : 0 < c.rate.toInt => by omega, fun hb' => by simp [hb] at hb'⟩
    · exact rawStep_inv (c := { c with acc := BitVec.ofNat 32 (repeatAcc c) })
        ⟨h1, h2, h3, fun hp : 0 < c.rate.toInt => by omega, fun hb' => by simp [hb] at hb'⟩ h
  · exact rawStep_inv ⟨h1, h2, h3, h4, fun hb' => by simp [hb] at hb'⟩ h

theorem rateStep_of_readable {b : Build} (m : List Host.Cell) {c : Slot} (hr : c.Readable b) :
    ∃ r c1, rateStep b m c = some (r, c1) := by
  unfold rateStep
  split
  · exact ⟨_, _, rfl⟩
  · split
    · exact rawStep_of_readable m (c := { c with first := false }) hr
    · split
      · unfold skipStep
        obtain ⟨k, c1, h1⟩ := skipN_of_readable (b := b) m ((c.acc.toNat + c.rate.toInt.toNat) / 0x10000)
          (c := skipStart c) hr
        unfold skipStart at h1
        rw [h1]
        exact rawStep_of_readable m ((skipN_frame h1).readable hr)
      · split
        · unfold repeatStep
          split
          · exact ⟨_, _, rfl⟩
          · exact rawStep_of_readable m (c := { c with acc := BitVec.ofNat 32 (repeatAcc c) }) hr
        · exact rawStep_of_readable m hr

end Sys2Proof.Machine
end

