-- ==== Sys2Proof/Laws/Mixer.lean ====
section
/-! SUPPORT. The mixer: what one slot's part, a mix and a buffer fill can do, that they keep the slot invariants, that readable
data regions never leave them without an answer, and that answering a silent buffer at once is what the mixes give. -/

namespace Sys2Proof.Machine

theorem trunc0_zero (b : Int) : trunc0 0 b = 0 := by simp [trunc0]

/-- A channel no slot contributed to is 0, whatever the master volume (R210). -/
theorem channel_zero (b : Build) (mvol : Vol) : channel b mvol 0 = 0 := by
  have hc : clip b 0 = 0 := by
    unfold clip clamp clipLo clipHi
    split <;> simp
  unfold channel attenuate
  rw [hc]
  split
  · simp [trunc0_zero]
  · rfl

/-! ## One slot -/

/-- An ineligible slot takes no part and does not change (R202). -/
theorem mixSlot_ineligible {b : Build} {m : List Host.Cell} {c : Slot} (h : c.eligible = false) :
    mixSlot b m c = some (none, c) := by
  unfold mixSlot
  rw [if_neg (by simp [h])]

/-- All a slot's part in a mix can do: nothing, or at most one discarded rate step and the kept one (R201 to R203). -/
theorem mixSlot_cases {b : Build} {m : List Host.Cell} {c c2 : Slot} {r : Option Sample}
    (h : mixSlot b m c = some (r, c2)) :
    (c.eligible = false ∧ r = none ∧ c2 = c) ∨
      ∃ c1, c.eligible = true ∧ (c1 = c ∨ ∃ r1, rateStep b m c = some (r1, c1)) ∧ rateStep b m c1 = some (r, c2) := by
  unfold mixSlot at h
  split at h
  · next he =>
    split at h
    · cases h
    · next c1 h1 =>
      refine .inr ⟨c1, he, ?_, h⟩
      unfold discardStep at h1
      split at h1
      · simp only [Option.map_eq_some_iff, Prod.exists] at h1
        obtain ⟨r1, c1', h1, rfl⟩ := h1
        exact .inr ⟨r1, h1⟩
      · simp only [Option.some.injEq] at h1
        exact .inl h1.symm
  · next he =>
    simp only [Option.some.injEq, Prod.mk.injEq] at h
    exact .inl ⟨by simpa using he, h.1.symm, h.2.symm⟩

theorem eligible_bound {c : Slot} (h : c.eligible = true) : c.bound = true := by
  simp only [Slot.eligible, Bool.and_eq_true] at h
  exact h.1.1

theorem mixSlot_frame {b : Build} {m : List Host.Cell} {c c2 : Slot} {r : Option Sample}
    (h : mixSlot b m c = some (r, c2)) : RateFrame c c2 := by
  obtain ⟨-, -, rfl⟩ | ⟨c1, -, rfl | ⟨r1, h1⟩, h2⟩ := mixSlot_cases h
  · exact .refl c2
  · exact rateStep_frame h2
  · exact (rateStep_frame h1).trans (rateStep_frame h2)

theorem mixSlot_inv {b : Build} {m : List Host.Cell} {c c2 : Slot} {r : Option Sample} (hi : c.Inv)
    (h : mixSlot b m c = some (r, c2)) : c2.Inv := by
  obtain ⟨-, -, rfl⟩ | ⟨c1, he, rfl | ⟨r1, h1⟩, h2⟩ := mixSlot_cases h
  · exact hi
  · exact rateStep_inv hi (eligible_bound he) h2
  · exact rateStep_inv (rateStep_inv hi (eligible_bound he) h1) ((rateStep_frame h1).bound.trans (eligible_bound he)) h2

theorem discardStep_of_readable {b : Build} (m : List Host.Cell) {c : Slot} (hr : c.Readable b) :
    ∃ c1, discardStep b m c = some c1 ∧ RateFrame c c1 := by
  unfold discardStep
  split
  · obtain ⟨r1, c1, h1⟩ := rateStep_of_readable m hr
    exact ⟨c1, by simp [h1], rateStep_frame h1⟩
  · exact ⟨c, rfl, .refl c⟩

theorem mixSlot_of_readable {b : Build} (m : List Host.Cell) {c : Slot} (hr : c.bound = true → c.Readable b) :
    ∃ r c1, mixSlot b m c = some (r, c1) := by
  unfold mixSlot
  split
  · next he =>
    have hr' := hr (eligible_bound he)
    obtain ⟨c1, h1, hf⟩ := discardStep_of_readable m hr'
    rw [h1]
    exact rateStep_of_readable m (hf.readable hr')
  · exact ⟨_, _, rfl⟩

/-- An eligible slot whose next rate step has no answer leaves its part in a mix without one. -/
theorem mixSlot_eq_none {b : Build} {m : List Host.Cell} {c : Slot} (he : c.eligible = true) (h : rateStep b m c = none) :
    mixSlot b m c = none := by
  unfold mixSlot discardStep
  rw [if_pos he]
  split
  · rfl
  · next c1 h1 =>
    split at h1
    · rw [h] at h1
      cases h1
    · cases h1
      exact h

/-! ## One mix -/

/-- The five slots as a list of their own. -/
theorem slots_eta (v : Vector Slot 5) : #v[v[0], v[1], v[2], v[3], v[4]] = v := by
  apply Vector.ext
  intro i hi
  interval_cases i <;> rfl

/-- All a mix can do (R201): every slot takes its part; the frame and the count come from what they gave. -/
theorem mix_cases {b : Build} {m : List Host.Cell} {mvol : Vol} {slots : Vector Slot 5} {x : Mixed}
    (h : mix b m mvol slots = some x) :
    ∃ r : Fin 5 → Option Sample, (∀ k : Fin 5, mixSlot b m slots[k.val] = some (r k, x.slots[k.val])) ∧
      x.word = packFrame (channel b mvol (contribution (r 0) + contribution (r 2) + contribution (r 4)))
        (channel b mvol (contribution (r 1) + contribution (r 3))) ∧
      x.count = BitVec.ofNat 3 (contributed (r 0) + contributed (r 1) + contributed (r 2) + contributed (r 3)
        + contributed (r 4)) := by
  unfold mix at h
  split at h
  · next r0 c0 r1 c1 r2 c2 r3 c3 r4 c4 h0 h1 h2 h3 h4 =>
    simp only [Option.some.injEq] at h
    subst h
    refine ⟨fun k => [r0, r1, r2, r3, r4][k.val], fun k => ?_, rfl, rfl⟩
    fin_cases k
    · exact h0
    · exact h1
    · exact h2
    · exact h3
    · exact h4
  · cases h

/-- A mix is given by what each slot's part gives. -/
theorem mix_of_slots {b : Build} {m : List Host.Cell} (mvol : Vol) {slots : Vector Slot 5} {r : Fin 5 → Option Sample}
    {c : Fin 5 → Slot} (h : ∀ k : Fin 5, mixSlot b m slots[k.val] = some (r k, c k)) :
    mix b m mvol slots = some
      { word := packFrame (channel b mvol (contribution (r 0) + contribution (r 2) + contribution (r 4)))
          (channel b mvol (contribution (r 1) + contribution (r 3)))
        slots := #v[c 0, c 1, c 2, c 3, c 4]
        count := BitVec.ofNat 3 (contributed (r 0) + contributed (r 1) + contributed (r 2) + contributed (r 3)
          + contributed (r 4)) } := by
  have h0 : mixSlot b m slots[0] = _ := h 0
  have h1 : mixSlot b m slots[1] = _ := h 1
  have h2 : mixSlot b m slots[2] = _ := h 2
  have h3 : mixSlot b m slots[3] = _ := h 3
  have h4 : mixSlot b m slots[4] = _ := h 4
  unfold mix
  rw [h0, h1, h2, h3, h4]

theorem contributed_le (r : Option Sample) : contributed r ≤ 1 := by
  unfold contributed
  split <;> omega

theorem mix_count_le {b : Build} {m : List Host.Cell} {mvol : Vol} {slots : Vector Slot 5} {x : Mixed}
    (h : mix b m mvol slots = some x) : x.count.toNat ≤ 5 := by
  obtain ⟨r, -, -, hc⟩ := mix_cases h
  have := contributed_le (r 0)
  have := contributed_le (r 1)
  have := contributed_le (r 2)
  have := contributed_le (r 3)
  have := contributed_le (r 4)
  rw [hc, BitVec.toNat_ofNat]
  omega

/-- Slots that all keep the invariant. -/
abbrev SlotsInv (v : Vector Slot 5) : Prop := ∀ k : Fin 5, v[k.val].Inv

/-- Slots whose bound members have readable data regions. -/
abbrev SlotsReadable (b : Build) (v : Vector Slot 5) : Prop := ∀ k : Fin 5, v[k.val].bound = true → v[k.val].Readable b

theorem mix_inv {b : Build} {m : List Host.Cell} {mvol : Vol} {slots : Vector Slot 5} {x : Mixed} (hi : SlotsInv slots)
    (h : mix b m mvol slots = some x) : SlotsInv x.slots := by
  obtain ⟨r, hs, -, -⟩ := mix_cases h
  exact fun k => mixSlot_inv (hi k) (hs k)

theorem mix_readable {b : Build} {m : List Host.Cell} {mvol : Vol} {slots : Vector Slot 5} {x : Mixed}
    (hr : SlotsReadable b slots) (h : mix b m mvol slots = some x) : SlotsReadable b x.slots := by
  obtain ⟨r, hs, -, -⟩ := mix_cases h
  intro k hb
  rw [(mixSlot_frame (hs k)).bound] at hb
  exact (mixSlot_frame (hs k)).readable (hr k hb)

theorem mix_of_readable {b : Build} (m : List Host.Cell) (mvol : Vol) {slots : Vector Slot 5}
    (hr : SlotsReadable b slots) : ∃ x, mix b m mvol slots = some x := by
  choose r c h using fun k : Fin 5 => mixSlot_of_readable (b := b) m (c := slots[k.val]) (hr k)
  exact ⟨_, mix_of_slots mvol h⟩

/-- With no eligible slot a mix is silence, counts 0 and changes no slot (R210 law 3). -/
theorem mix_silent {b : Build} (m : List Host.Cell) (mvol : Vol) {slots : Vector Slot 5}
    (h : ∀ k : Fin 5, slots[k.val].eligible = false) :
    mix b m mvol slots = some { word := 0, slots := slots, count := 0 } := by
  rw [mix_of_slots mvol (r := fun _ => none) (c := fun k => slots[k.val]) fun k => mixSlot_ineligible (h k)]
  have hv : #v[slots[(0 : Fin 5).val], slots[(1 : Fin 5).val], slots[(2 : Fin 5).val], slots[(3 : Fin 5).val],
      slots[(4 : Fin 5).val]] = slots := slots_eta slots
  rw [hv]
  simp only [contribution, Int.add_zero, channel_zero]
  rfl

/-- A mix has no answer where a slot's part has none (R82). -/
theorem mix_eq_none {b : Build} {m : List Host.Cell} {mvol : Vol} {slots : Vector Slot 5} {k : Fin 5}
    (h : mixSlot b m slots[k.val] = none) : mix b m mvol slots = none := by
  cases hx : mix b m mvol slots with
  | none => rfl
  | some x =>
    obtain ⟨r, hs, -, -⟩ := mix_cases hx
    rw [hs k] at h
    cases h

/-! ## Filling a buffer -/

/-- All one more frame can do: a mix, then the frames after it. -/
theorem mixLoop_succ {b : Build} {m : List Host.Cell} {mvol : Vol} {n : Nat} {slots : Vector Slot 5} {last : BitVec 3}
    {f : Filled} (h : mixLoop b m mvol (n + 1) slots last = some f) :
    ∃ x g, mix b m mvol slots = some x ∧ mixLoop b m mvol n x.slots x.count = some g ∧
      f = { g with words := x.word :: g.words } := by
  simp only [mixLoop] at h
  split at h
  · cases h
  · next x hx =>
    split at h
    · cases h
    · next g hg =>
      simp only [Option.some.injEq] at h
      exact ⟨x, g, hx, hg, h.symm⟩

theorem mixLoop_length {b : Build} {m : List Host.Cell} {mvol : Vol} : ∀ {n : Nat} {slots : Vector Slot 5} {last : BitVec 3}
    {f : Filled}, mixLoop b m mvol n slots last = some f → f.words.length = n
  | 0, slots, last, f, h => by
    simp only [mixLoop, Option.some.injEq] at h
    rw [← h]
    rfl
  | n + 1, slots, last, f, h => by
    obtain ⟨x, g, -, hg, rfl⟩ := mixLoop_succ h
    simp [mixLoop_length hg]

theorem mixLoop_inv {b : Build} {m : List Host.Cell} {mvol : Vol} : ∀ {n : Nat} {slots : Vector Slot 5} {last : BitVec 3}
    {f : Filled}, SlotsInv slots → last.toNat ≤ 5 → mixLoop b m mvol n slots last = some f →
    SlotsInv f.slots ∧ f.lastMix.toNat ≤ 5
  | 0, slots, last, f, hi, hl, h => by
    simp only [mixLoop, Option.some.injEq] at h
    rw [← h]
    exact ⟨hi, hl⟩
  | n + 1, slots, last, f, hi, hl, h => by
    obtain ⟨x, g, hx, hg, rfl⟩ := mixLoop_succ h
    have hk := mixLoop_inv (mix_inv hi hx) (mix_count_le hx) hg
    exact hk

theorem mixLoop_readable {b : Build} {m : List Host.Cell} {mvol : Vol} : ∀ {n : Nat} {slots : Vector Slot 5}
    {last : BitVec 3} {f : Filled}, SlotsReadable b slots → mixLoop b m mvol n slots last = some f →
    SlotsReadable b f.slots
  | 0, slots, last, f, hr, h => by
    simp only [mixLoop, Option.some.injEq] at h
    rw [← h]
    exact hr
  | n + 1, slots, last, f, hr, h => by
    obtain ⟨x, g, hx, hg, rfl⟩ := mixLoop_succ h
    have hk := mixLoop_readable (mix_readable hr hx) hg
    exact hk

theorem mixLoop_of_readable {b : Build} (m : List Host.Cell) (mvol : Vol) : ∀ (n : Nat) {slots : Vector Slot 5}
    (last : BitVec 3), SlotsReadable b slots → ∃ f, mixLoop b m mvol n slots last = some f
  | 0, slots, last, _ => ⟨_, rfl⟩
  | n + 1, slots, last, hr => by
    obtain ⟨x, hx⟩ := mix_of_readable m mvol hr
    obtain ⟨g, hg⟩ := mixLoop_of_readable m mvol n x.count (mix_readable hr hx)
    exact ⟨{ g with words := x.word :: g.words }, by simp [mixLoop, hx, hg]⟩

/-- A buffer fill is mixes in a row, the first frame first, each on the slots the mix before it left (R209). -/
theorem mixLoop_row {b : Build} {m : List Host.Cell} {mvol : Vol} : ∀ {n : Nat} {slots : Vector Slot 5} {last : BitVec 3}
    {f : Filled}, mixLoop b m mvol (n + 1) slots last = some f →
    ∃ x : Nat → Mixed, (∀ i < n + 1, mix b m mvol (if i = 0 then slots else (x (i - 1)).slots) = some (x i)) ∧
      f.words = (List.range (n + 1)).map (fun i => (x i).word) ∧ f.slots = (x n).slots ∧ f.lastMix = (x n).count
  | 0, slots, last, f, h => by
    obtain ⟨x, g, hx, hg, rfl⟩ := mixLoop_succ h
    simp only [mixLoop, Option.some.injEq] at hg
    subst hg
    exact ⟨fun _ => x, fun i hi => by rw [if_pos (by omega), hx], rfl, rfl, rfl⟩
  | n + 1, slots, last, f, h => by
    obtain ⟨x, g, hx, hg, rfl⟩ := mixLoop_succ h
    obtain ⟨y, hy, hw, hs, hl⟩ := mixLoop_row hg
    refine ⟨fun i => if i = 0 then x else y (i - 1), fun i hi => ?_, ?_, by simpa using hs, by simpa using hl⟩
    · cases i with
      | zero => simpa using hx
      | succ i =>
        have := hy i (by omega)
        cases i with
        | zero => simpa using this
        | succ i => simpa using this
    · simp [hw, List.range_succ_eq_map (n := n + 1), Function.comp_def]

/-- A slot left out of a mix is left out of every later one: nothing is read from it and it does not change (R202, R210). -/
theorem mixLoop_ineligible {b : Build} {m : List Host.Cell} {mvol : Vol} {k : Fin 5} : ∀ {n : Nat} {slots : Vector Slot 5}
    {last : BitVec 3} {f : Filled}, slots[k.val].eligible = false → mixLoop b m mvol n slots last = some f →
    f.slots[k.val] = slots[k.val]
  | 0, slots, last, f, _, h => by
    simp only [mixLoop, Option.some.injEq] at h
    rw [← h]
  | n + 1, slots, last, f, hk, h => by
    obtain ⟨x, g, hx, hg, rfl⟩ := mixLoop_succ h
    obtain ⟨r, hs, -, -⟩ := mix_cases hx
    have hxk := hs k
    rw [mixSlot_ineligible hk] at hxk
    simp only [Option.some.injEq, Prod.mk.injEq] at hxk
    have := mixLoop_ineligible (hxk.2 ▸ hk) hg
    exact this.trans hxk.2.symm

theorem silent_iff (slots : Vector Slot 5) : silent slots = true ↔ ∀ k : Fin 5, slots[k.val].eligible = false := by
  constructor
  · intro h k
    simp only [silent, Bool.not_eq_true', Bool.or_eq_false_iff] at h
    fin_cases k
    · exact h.1.1.1.1
    · exact h.1.1.1.2
    · exact h.1.1.2
    · exact h.1.2
    · exact h.2
  · intro h
    have h0 := h 0
    have h1 := h 1
    have h2 := h 2
    have h3 := h 3
    have h4 := h 4
    simp only [silent, Bool.not_eq_true', Bool.or_eq_false_iff]
    exact ⟨⟨⟨⟨h0, h1⟩, h2⟩, h3⟩, h4⟩

theorem mixLoop_silent {b : Build} (m : List Host.Cell) (mvol : Vol) {slots : Vector Slot 5} (h : silent slots = true) :
    ∀ (n : Nat) (last : BitVec 3), mixLoop b m mvol (n + 1) slots last =
      some { words := List.replicate (n + 1) 0, slots := slots, lastMix := 0 }
  | 0, last => by
    simp only [mixLoop, mix_silent m mvol ((silent_iff slots).1 h)]
    rfl
  | n + 1, last => by
    rw [mixLoop, mix_silent m mvol ((silent_iff slots).1 h)]
    simp only [mixLoop_silent m mvol h n]
    rfl

/-- MixInto is N_FRAMES mixes in a row (R209): the answer given at once for a silent buffer is what they give. -/
theorem mixFrames_eq_mixLoop (b : Build) (m : List Host.Cell) (mvol : Vol) (slots : Vector Slot 5) (last : BitVec 3) :
    mixFrames b m mvol slots last = mixLoop b m mvol (nFrames b) slots last := by
  unfold mixFrames
  split
  · next h => exact (mixLoop_silent m mvol h b.lastFrame.val last).symm
  · rfl

/-- A buffer fill has no answer where a slot's part in its first mix has none. -/
theorem mixFrames_eq_none {b : Build} {m : List Host.Cell} {mvol : Vol} {slots : Vector Slot 5} {last : BitVec 3} {k : Fin 5}
    (h : mixSlot b m slots[k.val] = none) : mixFrames b m mvol slots last = none := by
  rw [mixFrames_eq_mixLoop, nFrames, mixLoop, mix_eq_none h]

end Sys2Proof.Machine
end

