-- ==== Sys2Proof/Laws/Exec.lean ====
section
/-! SUPPORT. The shared operations of the meanings, and what each kind of command can do: an error, or a success with its
slot, its buffers or its engine registers written. -/

namespace Sys2Proof.Machine

/-! ## The slot checks and the operand checks -/

theorem slotNo_of_lt {n : BitVec 3} (h : n.toNat < 5) : n = slotNo ⟨n.toNat, h⟩ :=
  BitVec.eq_of_toNat_eq (slotNo_toNat ⟨n.toNat, h⟩).symm

theorem onSlot_slotNo (i : Fin 5) (s : State) (k : Fin 5 → Result) : onSlot (slotNo i) s k = k i := by
  have h : (slotNo i).toNat < 5 := by rw [slotNo_toNat]; exact i.isLt
  unfold onSlot
  rw [dif_pos h]
  exact congrArg k (Fin.ext (slotNo_toNat i))

theorem onSlot_bad {n : BitVec 3} (h : 5 ≤ n.toNat) (s : State) (k : Fin 5 → Result) :
    onSlot n s k = .next (s.raiseError .badSlot) := by
  unfold onSlot
  rw [dif_neg (by omega)]

/-- All the slot check can do (R272). -/
theorem onSlot_cases {n : BitVec 3} {s t : State} {k : Fin 5 → Result} (h : onSlot n s k = .next t) :
    t = s.raiseError .badSlot ∨ ∃ i : Fin 5, n = slotNo i ∧ k i = .next t := by
  by_cases hn : n.toNat < 5
  · refine .inr ⟨⟨n.toNat, hn⟩, slotNo_of_lt hn, ?_⟩
    rw [slotNo_of_lt hn, onSlot_slotNo] at h
    exact h
  · rw [onSlot_bad (by omega)] at h
    injection h with h
    exact .inl h.symm

theorem onBoundSlot_slotNo {i : Fin 5} {s : State} (h : (s.slot i).bound = true) (k : Fin 5 → Slot → Result) :
    onBoundSlot (slotNo i) s k = k i (s.slot i) := by
  unfold onBoundSlot
  rw [onSlot_slotNo, if_pos h]

theorem onBoundSlot_unbound {i : Fin 5} {s : State} (h : (s.slot i).bound = false) (k : Fin 5 → Slot → Result) :
    onBoundSlot (slotNo i) s k = .next (s.raiseError .unbound) := by
  unfold onBoundSlot
  rw [onSlot_slotNo, if_neg (by simp [h])]

/-- All the slot checks of a command on a bound slot can do (R272). -/
theorem onBoundSlot_cases {n : BitVec 3} {s t : State} {k : Fin 5 → Slot → Result} (h : onBoundSlot n s k = .next t) :
    (∃ e, t = s.raiseError e) ∨ ∃ i : Fin 5, n = slotNo i ∧ (s.slot i).bound = true ∧ k i (s.slot i) = .next t := by
  obtain h | ⟨i, hn, h⟩ := onSlot_cases h
  · exact .inl ⟨_, h⟩
  · split at h
    · next hb => exact .inr ⟨i, hn, hb, h⟩
    · injection h with h
      exact .inl ⟨_, h.symm⟩

/-- All an operand check can do (R272). -/
theorem withOperand_cases {α : Type} {o : Option α} {s t : State} {k : α → Result} (h : withOperand o s k = .next t) :
    t = s.raiseError .badArg ∨ ∃ x, o = some x ∧ k x = .next t := by
  cases o with
  | none =>
    injection h with h
    exact .inl h.symm
  | some x => exact .inr ⟨x, rfl, h⟩

theorem orStuck_next {o : Option State} {t : State} (h : orStuck o = .next t) : o = some t := by
  cases o with
  | none => cases h
  | some u =>
    injection h with h
    rw [h]

/-! ## Slot commands -/

/-- What a successful slot command writes: slot `k`, with its invariant kept, and RESULT. -/
def SlotWrite (s t : State) (k : Fin 5) : Prop :=
  ∃ c r, t = (s.setSlot k c).finish r ∧ ((s.slot k).Inv → c.Inv)

theorem slotWrite_mk {s t : State} {k : Fin 5} {c : Slot} {r : Word}
    (h : Host.Outcome.next (φ := Fault) (ρ := Refusal) ((s.setSlot k c).finish r) = .next t)
    (hc : (s.slot k).Inv → c.Inv) : SlotWrite s t k := by
  injection h with h
  exact ⟨c, r, h.symm, hc⟩

/-- The invariant after a command that writes only flags of a bound slot. -/
theorem inv_flags (c : Slot) {c1 : Slot} (hb : c1.bound = true) (h1 : c1.base = c.base) (h2 : c1.len = c.len)
    (h3 : c1.pos.toNat ≤ c.pos.toNat) (h4 : c1.vol.toNat ≤ max c.vol.toNat 0x10000) (h5 : c1.rate = c.rate ∧ c1.acc = c.acc)
    (hi : c.Inv) : c1.Inv := by
  obtain ⟨i1, i2, i3, i4, -⟩ := hi
  refine ⟨by rw [h1, h2]; exact i1, by rw [h2]; omega, by omega, by rw [h5.1, h5.2]; exact i4, fun hb' => ?_⟩
  rw [hb] at hb'
  cases hb'

theorem unbound_inv : Slot.unbound.Inv := by decide

/-- All a slot command can do (R140 to R150, R181): an error, or its own slot and RESULT written. -/
theorem exec_slotCommand {i : Instr} {n : BitVec 3} {s t : State} (hn : i.slotField = some n)
    (h : exec i s = .next t) : (∃ e, t = s.raiseError e) ∨ ∃ k, n = slotNo k ∧ SlotWrite s t k := by
  cases i with
  | nop | start | stop | tick | clearAll | setMasterVol | setRateMode => cases hn
  | bind m =>
    cases hn
    simp only [exec, execBind] at h
    obtain h | ⟨k, hk, h⟩ := onSlot_cases h
    · exact .inl ⟨_, h⟩
    · obtain h | ⟨x, hx, h⟩ := withOperand_cases h
      · exact .inl ⟨_, h⟩
      · refine .inr ⟨k, hk, slotWrite_mk h fun _ => ?_⟩
        unfold Latch.dataRegion at hx
        split at hx
        · next hle =>
          injection hx with hx
          subst hx
          exact ⟨hle, Nat.zero_le _, Nat.le_refl _, fun _ => Nat.zero_lt_succ _, fun hb => by cases hb⟩
        · cases hx
  | unbind m =>
    cases hn
    simp only [exec, execUnbind] at h
    obtain h | ⟨k, hk, h⟩ := onSlot_cases h
    · exact .inl ⟨_, h⟩
    · exact .inr ⟨k, hk, slotWrite_mk h fun _ => unbound_inv⟩
  | setVol m =>
    cases hn
    simp only [exec, execSetVol] at h
    obtain h | ⟨k, hk, hb, h⟩ := onBoundSlot_cases h
    · exact .inl h
    · refine .inr ⟨k, hk, slotWrite_mk h fun hi => inv_flags (s.slot k) hb rfl rfl (le_refl _) ?_ ⟨rfl, rfl⟩ hi⟩
      have h1 := vol_toNat s.latch
      have h2 := clamp_mem (v := s.latch.a0.toInt) (lo := 0) (hi := 0x10000) (by omega)
      simp only
      omega
  | setLoop m =>
    cases hn
    simp only [exec, execSetLoop] at h
    obtain h | ⟨k, hk, hb, h⟩ := onBoundSlot_cases h
    · exact .inl h
    · obtain h | ⟨x, hx, h⟩ := withOperand_cases h
      · exact .inl ⟨_, h⟩
      · exact .inr ⟨k, hk, slotWrite_mk h fun hi => inv_flags (s.slot k) hb rfl rfl (le_refl _) (le_max_left _ _) ⟨rfl, rfl⟩ hi⟩
  | pause m =>
    cases hn
    simp only [exec, execPause] at h
    obtain h | ⟨k, hk, hb, h⟩ := onBoundSlot_cases h
    · exact .inl h
    · exact .inr ⟨k, hk, slotWrite_mk h fun hi => inv_flags (s.slot k) hb rfl rfl (le_refl _) (le_max_left _ _) ⟨rfl, rfl⟩ hi⟩
  | unpause m =>
    cases hn
    simp only [exec, execUnpause] at h
    obtain h | ⟨k, hk, hb, h⟩ := onBoundSlot_cases h
    · exact .inl h
    · exact .inr ⟨k, hk, slotWrite_mk h fun hi => inv_flags (s.slot k) hb rfl rfl (le_refl _) (le_max_left _ _) ⟨rfl, rfl⟩ hi⟩
  | setDepop m =>
    cases hn
    simp only [exec, execSetDepop] at h
    obtain h | ⟨k, hk, hb, h⟩ := onBoundSlot_cases h
    · exact .inl h
    · obtain h | ⟨x, hx, h⟩ := withOperand_cases h
      · exact .inl ⟨_, h⟩
      · exact .inr ⟨k, hk, slotWrite_mk h fun hi => inv_flags (s.slot k) hb rfl rfl (le_refl _) (le_max_left _ _) ⟨rfl, rfl⟩ hi⟩
  | setDownsample m =>
    cases hn
    simp only [exec, execSetDownsample] at h
    obtain h | ⟨k, hk, hb, h⟩ := onBoundSlot_cases h
    · exact .inl h
    · obtain h | ⟨x, hx, h⟩ := withOperand_cases h
      · exact .inl ⟨_, h⟩
      · exact .inr ⟨k, hk, slotWrite_mk h fun hi => inv_flags (s.slot k) hb rfl rfl (le_refl _) (le_max_left _ _) ⟨rfl, rfl⟩ hi⟩
  | seekStart m =>
    cases hn
    simp only [exec, execSeekStart] at h
    obtain h | ⟨k, hk, hb, h⟩ := onBoundSlot_cases h
    · exact .inl h
    · exact .inr ⟨k, hk, slotWrite_mk h fun hi =>
        inv_flags (s.slot k) (c1 := (s.slot k).rewind) hb rfl rfl (Nat.zero_le _) (le_max_left _ _) ⟨rfl, rfl⟩ hi⟩
  | fetch m =>
    cases hn
    simp only [exec, execFetch] at h
    obtain h | ⟨k, hk, hb, h⟩ := onBoundSlot_cases h
    · exact .inl h
    · have h := orStuck_next h
      simp only [Option.map_eq_some_iff, Prod.exists] at h
      obtain ⟨r, c, hr, rfl⟩ := h
      exact .inr ⟨k, hk, c, _, rfl, fun hi => rateStep_inv hi hb hr⟩
  | skip m =>
    cases hn
    simp only [exec, execSkip] at h
    obtain h | ⟨k, hk, hb, h⟩ := onBoundSlot_cases h
    · exact .inl h
    · have h := orStuck_next h
      simp only [Option.map_eq_some_iff, Prod.exists] at h
      obtain ⟨r, c, hr, rfl⟩ := h
      exact .inr ⟨k, hk, c, _, rfl, fun hi => skipN_inv hi hr⟩
  | setRate m =>
    cases hn
    simp only [exec, execSetRate] at h
    obtain h | ⟨k, hk, hb, h⟩ := onBoundSlot_cases h
    · exact .inl h
    · refine .inr ⟨k, hk, slotWrite_mk h fun hi => ?_⟩
      obtain ⟨i1, i2, i3, -, -⟩ := hi
      exact ⟨i1, i2, i3, fun _ => Nat.zero_lt_succ _, fun hb' => by simp [hb] at hb'⟩

/-! ## The mixing commands -/

/-- All MixInto(STAGE) can do (R209). -/
theorem mixIntoStage_cases {s t : State} (h : mixIntoStage s = some t) :
    ∃ f, mixLoop s.build s.mem s.mvol (nFrames s.build) s.slots s.lastMix = some f ∧
      t = { s.afterMix f with stage := f.words } := by
  unfold mixIntoStage at h
  rw [mixFrames_eq_mixLoop] at h
  simp only [Option.map_eq_some_iff] at h
  obtain ⟨f, hf, rfl⟩ := h
  exact ⟨f, hf, rfl⟩

theorem mixIntoStage_of {s : State} {f : Filled}
    (h : mixLoop s.build s.mem s.mvol (nFrames s.build) s.slots s.lastMix = some f) :
    mixIntoStage s = some { s.afterMix f with stage := f.words } := by
  unfold mixIntoStage
  rw [mixFrames_eq_mixLoop, h]
  rfl

/-- All MixInto(BUF[x]) can do (R209). -/
theorem mixIntoTx_cases {s t : State} {x : Buf} (h : mixIntoTx x s = some t) :
    ∃ f, mixLoop s.build s.mem s.mvol (nFrames s.build) s.slots s.lastMix = some f ∧
      t = (s.afterMix f).setTxBuf x f.words := by
  unfold mixIntoTx at h
  rw [mixFrames_eq_mixLoop] at h
  simp only [Option.map_eq_some_iff] at h
  obtain ⟨f, hf, rfl⟩ := h
  exact ⟨f, hf, rfl⟩

theorem mixIntoTx_of {s : State} {x : Buf} {f : Filled}
    (h : mixLoop s.build s.mem s.mvol (nFrames s.build) s.slots s.lastMix = some f) :
    mixIntoTx x s = some ((s.afterMix f).setTxBuf x f.words) := by
  unfold mixIntoTx
  rw [mixFrames_eq_mixLoop, h]
  rfl

/-- The three fills of START, one after the other (R224): the third is STAGE's own words when it is not primed. -/
structure Primed (s : State) (fa fb fc : Filled) : Prop where
  a : mixLoop s.build s.mem s.mvol (nFrames s.build) s.slots s.lastMix = some fa
  b : mixLoop s.build s.mem s.mvol (nFrames s.build) fa.slots fa.lastMix = some fb
  c : if s.build.primeStaging = true then
        mixLoop s.build s.mem s.mvol (nFrames s.build) fb.slots fb.lastMix = some fc
      else fc = { words := s.stage, slots := fb.slots, lastMix := fb.lastMix }

/-- The state the fills of START leave. -/
def primedState (s : State) (fa fb fc : Filled) : State :=
  { s with bufA := fa.words, bufB := fb.words, stage := fc.words, slots := fc.slots, lastMix := fc.lastMix }

/-- All the mixes of START can do (R224). -/
theorem primeBuffers_cases {s t : State} (h : primeBuffers s = some t) :
    ∃ fa fb fc, Primed s fa fb fc ∧ t = primedState s fa fb fc := by
  unfold primeBuffers at h
  simp only [Option.bind_eq_some_iff] at h
  obtain ⟨s1, h1, s2, h2, h3⟩ := h
  obtain ⟨fa, ha, rfl⟩ := mixIntoTx_cases h1
  obtain ⟨fb, hb, rfl⟩ := mixIntoTx_cases h2
  by_cases hp : s.build.primeStaging = true
  · rw [if_pos (by exact hp)] at h3
    obtain ⟨fc, hc, rfl⟩ := mixIntoStage_cases h3
    exact ⟨fa, fb, fc, ⟨ha, hb, by rw [if_pos hp]; exact hc⟩, rfl⟩
  · rw [if_neg (by exact hp)] at h3
    injection h3 with h3
    subst h3
    exact ⟨fa, fb, _, ⟨ha, hb, by rw [if_neg hp]⟩, rfl⟩

theorem primeBuffers_of {s : State} {fa fb fc : Filled} (h : Primed s fa fb fc) :
    primeBuffers s = some (primedState s fa fb fc) := by
  obtain ⟨ha, hb, hc⟩ := h
  unfold primeBuffers
  rw [mixIntoTx_of ha, Option.bind_some, mixIntoTx_of (by exact hb), Option.bind_some]
  by_cases hp : s.build.primeStaging = true
  · rw [if_pos hp] at hc
    rw [if_pos (by exact hp), mixIntoStage_of (by exact hc)]
    rfl
  · rw [if_neg hp] at hc
    rw [if_neg (by exact hp), hc]
    rfl

/-- Readable data regions never leave START without an answer. -/
theorem primed_of_readable {s : State} (hr : SlotsReadable s.build s.slots) : ∃ fa fb fc, Primed s fa fb fc := by
  obtain ⟨fa, ha⟩ := mixLoop_of_readable s.mem s.mvol (nFrames s.build) s.lastMix hr
  have hra := mixLoop_readable hr ha
  obtain ⟨fb, hb⟩ := mixLoop_of_readable s.mem s.mvol (nFrames s.build) fa.lastMix hra
  have hrb := mixLoop_readable hra hb
  by_cases hp : s.build.primeStaging = true
  · obtain ⟨fc, hc⟩ := mixLoop_of_readable s.mem s.mvol (nFrames s.build) fb.lastMix hrb
    exact ⟨fa, fb, fc, ha, hb, by rw [if_pos hp]; exact hc⟩
  · exact ⟨fa, fb, _, ha, hb, by rw [if_neg hp]⟩

/-- All START can do (R224). -/
theorem execStart_cases {s t : State} (h : execStart s = .next t) :
    (s.mode ≠ .idle ∧ t = s.raiseError .badState) ∨
      (s.mode = .idle ∧ ∃ fa fb fc, Primed s fa fb fc ∧ t = (startDma (primedState s fa fb fc)).finish 0) := by
  unfold execStart at h
  split at h
  · next hm =>
    have h := orStuck_next h
    simp only [Option.map_eq_some_iff] at h
    obtain ⟨u, hu, rfl⟩ := h
    obtain ⟨fa, fb, fc, ⟨ha, hb, hc⟩, rfl⟩ := primeBuffers_cases hu
    exact .inr ⟨hm, fa, fb, fc, ⟨ha, hb, hc⟩, rfl⟩
  · next hm =>
    injection h with h
    exact .inl ⟨hm, h.symm⟩

theorem execStart_of {s : State} {fa fb fc : Filled} (hm : s.mode = .idle) (h : Primed s fa fb fc) :
    execStart s = .next ((startDma (primedState s fa fb fc)).finish 0) := by
  unfold execStart
  obtain ⟨ha, hb, hc⟩ := h
  rw [if_pos hm, primeBuffers_of (s := { s with mode := .priming }) ⟨ha, hb, hc⟩]
  rfl

/-- The state an active TICK leaves before its last part (R228, R229). -/
def remixed (s : State) (f : Filled) : State :=
  { (copyStage (swapBuffers s)).afterMix f with stage := f.words }

/-- All TICK can do (R227). -/
theorem execTick_cases {s t : State} (h : execTick s = .next t) :
    ((s.mode ≠ .streaming ∨ s.evt = false) ∧ t = s.finish 0) ∨
      (s.mode = .streaming ∧ s.evt = true ∧ ∃ f,
        mixLoop s.build s.mem s.mvol (nFrames s.build) s.slots s.lastMix = some f ∧ t = finishTick (remixed s f)) := by
  unfold execTick at h
  split at h
  · next hm =>
    have h := orStuck_next h
    simp only [Option.map_eq_some_iff] at h
    obtain ⟨u, hu, rfl⟩ := h
    obtain ⟨f, hf, rfl⟩ := mixIntoStage_cases hu
    simp only [copyStage, State.setTxBuf_build, State.setTxBuf_mem, State.setTxBuf_mvol, State.setTxBuf_slots,
      State.setTxBuf_lastMix] at hf
    exact .inr ⟨hm.1, hm.2, f, hf, rfl⟩
  · next hm =>
    injection h with h
    refine .inl ⟨?_, h.symm⟩
    by_cases he : s.evt = false
    · exact .inr he
    · exact .inl fun hs => hm ⟨hs, by simpa using he⟩

theorem execTick_of {s : State} {f : Filled} (hm : s.mode = .streaming) (he : s.evt = true)
    (h : mixLoop s.build s.mem s.mvol (nFrames s.build) s.slots s.lastMix = some f) :
    execTick s = .next (finishTick (remixed s f)) := by
  unfold execTick
  rw [if_pos ⟨hm, he⟩, mixIntoStage_of (f := f)]
  · rfl
  · simp only [copyStage, State.setTxBuf_build, State.setTxBuf_mem, State.setTxBuf_mvol, State.setTxBuf_slots,
      State.setTxBuf_lastMix]
    exact h

/-- The end of an active TICK (R230): RESULT and the cause FINISHED by whether the last mix had no contributing slot. -/
theorem finishTick_eq (s : State) : finishTick s =
    { s with
      result := if s.lastMix = 0 then 1 else 0
      irqStatus := s.irqStatus ||| (if s.lastMix = 0 then 0b1010#4 else 0b1000#4)
      busy := false } := by
  unfold finishTick
  split
  · next h =>
    simp only [State.finish, State.complete, State.setCause, Cause.mask, BitVec.or_assoc]
    rfl
  · rfl

/-! ## Steps -/

/-- A decoded command, at the turn of SEQ. -/
theorem seqStep_decoded {s : State} {i : Instr} (hb : s.busy = true) (hd : decode s.latch.cw = .ok i) :
    seqStep s = exec i s := by
  unfold seqStep
  rw [if_pos hb, hd]

/-- All a SEQ step can do (R220): nothing without a command, the decoded command, or the decoder's error. -/
theorem seqStep_cases {s t : State} (h : seqStep s = .next t) :
    (s.busy = false ∧ t = s) ∨ (∃ i, decode s.latch.cw = .ok i ∧ exec i s = .next t) ∨ ∃ e, t = s.raiseError e := by
  unfold seqStep at h
  split at h
  · split at h
    · next i hi => exact .inr (.inl ⟨i, hi, h⟩)
    · injection h with h
      exact .inr (.inr ⟨_, h.symm⟩)
  · next hb =>
    injection h with h
    exact .inl ⟨by simpa using hb, h.symm⟩

/-- A turn at the head of the agenda is the next step. -/
theorem step_agenda {s : State} {x : Turn} {ts : List Turn} (h : s.agenda = x :: ts) :
    step s = takeTurn x { s with agenda := ts } := by
  unfold step pickTurn
  rw [h]

/-- The state a turn is taken on differs from the state before at most in the agenda and the draw counter. -/
theorem pickTurn_cases (s : State) : ∃ ts d, (pickTurn s).2 = { s with agenda := ts, draws := d } := by
  unfold pickTurn
  split
  · next t ts h => exact ⟨ts, s.draws, rfl⟩
  · next h =>
    have hs : s = { s with agenda := [], draws := s.draws } := by rw [← h]
    split
    · exact ⟨[], s.draws, hs⟩
    · exact ⟨[], s.draws, hs⟩
    · refine ⟨[], s.draws + 1, ?_⟩
      rw [← h]

/-- All a step can do (R9): stand still, or one turn on a state that differs at most in the agenda and the draws. -/
theorem step_cases {s t : State} (h : step s = .next t) :
    ∃ ts d, t = { s with agenda := ts, draws := d } ∨ ∃ x, takeTurn x { s with agenda := ts, draws := d } = .next t := by
  obtain ⟨ts, d, hp⟩ := pickTurn_cases s
  refine ⟨ts, d, ?_⟩
  unfold step at h
  split at h
  · next s1 hs =>
    injection h with h
    rw [hs] at hp
    exact .inl (h.symm.trans hp)
  · next x s1 hs =>
    rw [hs] at hp
    exact .inr ⟨x, by rw [← hp]; exact h⟩

/-- All a host access can do (R33, R86): nothing outside the window, else its register action. -/
theorem access_cases {s t : State} {addr : Word} {w : Width} {k : Reg → State} (h : access s addr w k = .next t) :
    t = s ∨ ∃ r, t = k r := by
  unfold access at h
  split at h
  · injection h with h
    exact .inl h.symm
  · split at h
    · injection h with h
      exact .inr ⟨_, h.symm⟩
    · cases h

/-- An aligned 32-bit access to word `k` of the window reaches the register there. -/
theorem access_word {s : State} {k : Nat} (hk : k < 0x1000) (f : Reg → State) :
    access s (s.build.mmioBase + BitVec.ofNat 32 (4 * k)) .word f = .next (f (regAt k)) := by
  have ho : offsetOf s.build (s.build.mmioBase + BitVec.ofNat 32 (4 * k)) = 4 * k := by
    unfold offsetOf
    rw [BitVec.add_comm, BitVec.add_sub_cancel, BitVec.toNat_ofNat]
    omega
  unfold access windowBytes
  rw [ho, if_neg (by omega), if_pos ⟨rfl, by omega⟩, Nat.mul_div_cancel_left k (by omega)]

end Sys2Proof.Machine
end

