-- ==== Sys2Proof/Laws/PerInstr.lean ====
section
/-! SUPPORT. Statements about every command as syntax, one lemma per constructor: the fields of its encoded word (R100 to R103). -/

namespace Sys2Proof.Laws.EncodingFields

/-- The fields of a command's word: OPC is its opcode, SLOT its slot number or 0, RSV 0 (R100, R102, R103). -/
def Statement (i : Instr) : Prop :=
  opcOf (encode i) = opcodeOf i ∧ slotOf (encode i) = i.slotField.getD 0 ∧ rsvOf (encode i) = 0

theorem nop : Statement .nop := ⟨rfl, rfl, rfl⟩
theorem start : Statement .start := ⟨rfl, rfl, rfl⟩
theorem stop : Statement .stop := ⟨rfl, rfl, rfl⟩
theorem tick : Statement .tick := ⟨rfl, rfl, rfl⟩
theorem clearAll : Statement .clearAll := ⟨rfl, rfl, rfl⟩
theorem setMasterVol : Statement .setMasterVol := ⟨rfl, rfl, rfl⟩
theorem setRateMode : Statement .setRateMode := ⟨rfl, rfl, rfl⟩

/-- The fields of a slot command's word, for any opcode. -/
theorem slot_word (n : BitVec 3) (opc : BitVec 8) :
    opcOf (0#21 ++ n ++ opc) = opc ∧ slotOf (0#21 ++ n ++ opc) = n ∧ rsvOf (0#21 ++ n ++ opc) = 0 := by
  refine ⟨?_, ?_, ?_⟩
  · exact BitVec.extractLsb'_append_eq_right
  · apply BitVec.eq_of_getLsbD_eq
    intro k hk
    rw [slotOf, BitVec.getLsbD_extractLsb', BitVec.getLsbD_append, BitVec.getLsbD_append]
    simp [show ¬ 8 + k < 8 by omega, show 8 + k - 8 = k by omega, hk]
  · apply BitVec.eq_of_getLsbD_eq
    intro k hk
    rw [rsvOf, BitVec.getLsbD_extractLsb', BitVec.getLsbD_append, BitVec.getLsbD_append]
    simp [show ¬ 11 + k < 8 by omega, show ¬ 11 + k - 8 < 3 by omega]

theorem bind (n : BitVec 3) : Statement (.bind n) := slot_word n 0x10
theorem unbind (n : BitVec 3) : Statement (.unbind n) := slot_word n 0x11
theorem setVol (n : BitVec 3) : Statement (.setVol n) := slot_word n 0x12
theorem setLoop (n : BitVec 3) : Statement (.setLoop n) := slot_word n 0x13
theorem pause (n : BitVec 3) : Statement (.pause n) := slot_word n 0x14
theorem unpause (n : BitVec 3) : Statement (.unpause n) := slot_word n 0x15
theorem setDepop (n : BitVec 3) : Statement (.setDepop n) := slot_word n 0x16
theorem setDownsample (n : BitVec 3) : Statement (.setDownsample n) := slot_word n 0x17
theorem seekStart (n : BitVec 3) : Statement (.seekStart n) := slot_word n 0x18
theorem fetch (n : BitVec 3) : Statement (.fetch n) := slot_word n 0x19
theorem skip (n : BitVec 3) : Statement (.skip n) := slot_word n 0x1A
theorem setRate (n : BitVec 3) : Statement (.setRate n) := slot_word n 0x20

end Sys2Proof.Laws.EncodingFields
end

