-- ==== Sys2Proof/Tests/Slice0.lean ====
section
/-! SUPPORT. The model's own tests. Expected values are those of spec/95_test_vectors.md (T<n>) and of the worked encodings of
spec/30_encoding.md R113, each named at its test; then one witness for every statement that has hypotheses. -/

open Sys2Proof Sys2Proof.Machine

namespace Sys2Proof.Tests

/-! ## Small machines -/

/-- The parameters of spec/95_test_vectors.md section 0, with `n + 1` frames and 4 KiB of readable sample memory. -/
abbrev build (n : Fin 1024) : Build :=
  { lastFrame := n, depopStartN := 32, depopEndPred := 511, primeStaging := true, clipSym := false
    mmioBase := 0x40000000, readable := [{ base := 0, len := 0x1000 }], irqLine := 7 }

/-- The reset state of that build, its undrawn buffers set to 0 so that a test can compare them. -/
abbrev idle (n : Fin 1024) : State :=
  { State.resetWith (build n) 0 with
    bufA := List.replicate (n.val + 1) 0, bufB := List.replicate (n.val + 1) 0, stage := List.replicate (n.val + 1) 0 }

/-- A bound slot at the start of its region, as BIND leaves it. -/
abbrev fresh (base len : Word) : Slot := { Slot.unbound with bound := true, base := base, len := len }

/-- `s` with command `i` latched. -/
abbrev latched (s : State) (i : Instr) (a0 a1 : Word) : State :=
  { s with busy := true, latch := { cw := encode i, a0 := a0, a1 := a1 } }

/-- The state after command `i` with operands `a0` and `a1`, if it completes. -/
abbrev after (s : State) (i : Instr) (a0 a1 : Word) : Option State := nextOf (exec i (latched s i a0 a1))

/-- SFLAGS of slot `i`. -/
abbrev flags (s : State) (i : Fin 5) : Word := (s.slot i).flagsWord

/-- Four samples 100, 200, 300, 400 at address 0 (T43.2). -/
abbrev samples4 : List Host.Cell := [(0, 0x64), (2, 0xC8), (4, 0x2C), (5, 0x01), (6, 0x90), (7, 0x01)]

/-- T43.2 before START: slot 0 bound to the four samples, two frames a buffer. -/
abbrev ready : State := { idle 1 with mem := samples4, slots := (idle 1).slots.set 0 (fresh 0 8) }

/-- T43.2 after START. -/
abbrev streaming : State :=
  { ready with
    slots := (idle 1).slots.set 0 { fresh 0 8 with first := false, pos := 8, last := 400, cnt := 4 }
    bufA := [0x64, 0xC8], bufB := [0x12C, 0x190], mode := .streaming
    dma := { run := true, wait := false, ptr := .a, idx := 0 }, irqStatus := 0b1000 }

/-- T43.5 before TICK: both words of buffer A are out. -/
abbrev consumed : State :=
  { streaming with
    tx := [0x64, 0xC8], evt := true, irqStatus := 0b1001, dma := { run := true, wait := true, ptr := .a, idx := 0 } }

/-- One frame a buffer, slot 0 bound to one sample x. -/
abbrev one (lo hi : Byte) : State :=
  { idle 0 with mem := putCell (putCell [] 0 lo) 1 hi, slots := (idle 0).slots.set 0 (fresh 0 2) }

/-- `s` with the host's next action `op` at its turn. -/
abbrev hosting (s : State) (op : HostOp) : State := { s with agenda := [.host], host := [op] }

/-! ## Well-formedness and encoding -/

theorem test_wellFormed_refuses_missing_slots :
    (Instr.bind 5).wellFormed = false ∧ (Instr.fetch 6).wellFormed = false ∧ (Instr.setRate 7).wellFormed = false ∧
      (Instr.bind 4).wellFormed = true ∧ (Instr.skip 0).wellFormed = true ∧ Instr.start.wellFormed = true := by decide

/-- R105, engine commands: RSV, SLOT and OPC written out. -/
theorem test_decode_engine_words :
    decode (0b000000000000000000000#21 ++ 0b000#3 ++ 0b00000000#8) = .ok .nop ∧
    decode (0b000000000000000000000#21 ++ 0b000#3 ++ 0b00000001#8) = .ok .start ∧
    decode (0b000000000000000000000#21 ++ 0b000#3 ++ 0b00000010#8) = .ok .stop ∧
    decode (0b000000000000000000000#21 ++ 0b000#3 ++ 0b00000011#8) = .ok .tick ∧
    decode (0b000000000000000000000#21 ++ 0b000#3 ++ 0b00000100#8) = .ok .clearAll ∧
    decode (0b000000000000000000000#21 ++ 0b000#3 ++ 0b00000101#8) = .ok .setMasterVol ∧
    decode (0b000000000000000000000#21 ++ 0b000#3 ++ 0b00000110#8) = .ok .setRateMode :=
  ⟨rfl, rfl, rfl, rfl, rfl, rfl, rfl⟩

/-- R105, slot commands, each with another slot number: whole words. -/
theorem test_decode_slot_words :
    decode 0b00000000000000000000000000010000#32 = .ok (.bind 0) ∧
    decode 0b00000000000000000000000100010001#32 = .ok (.unbind 1) ∧
    decode 0b00000000000000000000001000010010#32 = .ok (.setVol 2) ∧
    decode 0b00000000000000000000001100010011#32 = .ok (.setLoop 3) ∧
    decode 0b00000000000000000000010000010100#32 = .ok (.pause 4) ∧
    decode 0b00000000000000000000000000010101#32 = .ok (.unpause 0) ∧
    decode 0b00000000000000000000000100010110#32 = .ok (.setDepop 1) ∧
    decode 0b00000000000000000000001000010111#32 = .ok (.setDownsample 2) ∧
    decode 0b00000000000000000000001100011000#32 = .ok (.seekStart 3) ∧
    decode 0b00000000000000000000010000011001#32 = .ok (.fetch 4) ∧
    decode 0b00000000000000000000000100011010#32 = .ok (.skip 1) ∧
    decode 0b00000000000000000000001100100000#32 = .ok (.setRate 3) :=
  ⟨rfl, rfl, rfl, rfl, rfl, rfl, rfl, rfl, rfl, rfl, rfl, rfl⟩

/-- T60.1 and R107: words that hold no command, at the edges of the illegal ranges. -/
theorem test_decode_refuses :
    decode 0x07#32 = .error .illegalOpcode ∧ decode 0x0F#32 = .error .illegalOpcode ∧
    decode 0x1B#32 = .error .illegalOpcode ∧ decode 0x1F#32 = .error .illegalOpcode ∧
    decode 0x21#32 = .error .illegalOpcode ∧ decode 0xFF#32 = .error .illegalOpcode ∧
    decode 0x801#32 = .error .reserved ∧ decode 0x101#32 = .error .reserved ∧ decode 0x812#32 = .error .reserved ∧
    decode 0x80000010#32 = .error .reserved ∧ decode 0x710#32 = .ok (.bind 7) :=
  ⟨rfl, rfl, rfl, rfl, rfl, rfl, rfl, rfl, rfl, rfl, rfl⟩

/-- R110: the q literals the rule gives, and one the assembler rejects. -/
theorem test_qvalue :
    qvalue 10 1 = some 0x10000#32 ∧ qvalue 5 1 = some 0x8000#32 ∧ qvalue (-10) 1 = some 0xFFFF0000#32 ∧
      qvalue 50 1 = some 0x50000#32 ∧ qvalue 1 1 = none := by decide

/-- R111: BIND s1, 0x2000_0000, 44100 writes ARG0, ARG1 and CMD (R113) and waits for BUSY = 0. -/
theorem test_expand_bind :
    (Stmt.command (.bind 1) (some 0x20000000) (some 44100) false).expand (build 0) =
      [.write 0x4000000C .word 0x20000000, .write 0x40000010 .word 0xAC44, .write 0x40000014 .word 0x110,
        .poll 0x40000008 0x10 0] := by decide

/-! ## Engine commands -/

/-- T43.1. -/
theorem test_nop : (after { idle 0 with result := 0x101F4 } .nop 0 0).map (fun t => (t.result, t.irqStatus, t.busy)) =
    some (0, 0b1000, false) := by decide

/-- T43.2. -/
theorem test_start : (after ready .start 0 0).map (fun t => (t.bufA, t.bufB, t.stage, t.statusWord)) =
    some ([0x64, 0xC8], [0x12C, 0x190], [0, 0], 0x22) := by decide

/-- T43.3. -/
theorem test_start_in_streaming : (after streaming .start 0 0).map (fun t => (t.err.word, t.mode)) =
    some (0x104, .streaming) := by decide

/-- T43.6. -/
theorem test_stop : (after { streaming with dma := { streaming.dma with idx := 1 } } .stop 0 0).map
    (fun t => (t.statusWord, t.dma.idx, t.bufA)) = some (0, 0, [0x64, 0xC8]) := by decide

/-- T43.4: a TICK before the event. -/
theorem test_tick_before_event : (after streaming .tick 0 0).map (fun t => (t.result, t.bufA, t.sel)) =
    some (0, [0x64, 0xC8], .a) := by decide

/-- T43.5. -/
theorem test_tick : (after consumed .tick 0 0).map (fun t => (t.statusWord, t.result, t.bufA, t.bufB, t.irqStatus)) =
    some (0x826, 1, [0, 0], [0x12C, 0x190], 0b1011) := by decide

/-- T43.7. -/
theorem test_clearAll : (after ready .clearAll 0 0).map (fun t => [flags t 0, flags t 1, flags t 2, flags t 3, flags t 4]) =
    some [0x80, 0x80, 0x80, 0x80, 0x80] := by decide

/-- T43.8. -/
theorem test_setMasterVol : (after (idle 0) .setMasterVol 0x20000 0).map (·.mvol) = some 0x10000 ∧
    (after (idle 0) .setMasterVol 0xFFFF0000 0).map (·.mvol) = some 0 ∧
    (after (idle 0) .setMasterVol 0x8000 0).map (·.mvol) = some 0x8000 := by decide

/-- T43.9 in Idle. -/
theorem test_setRateMode : (after (idle 0) .setRateMode 0xAC44 0).map (·.statusWord) = some 0x80 ∧
    (after (idle 0) .setRateMode 48000 0).map (·.err.word) = some 0x605 := by decide

/-- T43.9 in Streaming: BAD_STATE comes before BAD_ARG. -/
theorem test_setRateMode_in_streaming : (after streaming .setRateMode 12345 0).map (·.err.word) = some 0x604 := by decide

/-! ## Slot commands -/

/-- T40.11: a region that ends at 2^32, and one that passes it. -/
theorem test_bind : (after (idle 0) (.bind 0) 0xFFFFFFF0 0x10).map (fun t => (flags t 0, t.err.word)) = some (0x81, 0) ∧
    (after (idle 0) (.bind 0) 0xFFFFFFF0 0x20).map (fun t => (flags t 0, t.err.word)) = some (0x80, 0x1005) := by decide

/-- T40.11. -/
theorem test_unbind : (after ready (.unbind 0) 0 0).map (fun t => (flags t 0, (t.slot 0).vol)) = some (0x80, 0x10000) := by
  decide

/-- T40.2. -/
theorem test_setVol : (after ready (.setVol 0) 0x80000000 0).map (fun t => (t.slot 0).vol) = some 0 ∧
    (after ready (.setVol 0) 0x7FFFFFFF 0).map (fun t => (t.slot 0).vol) = some 0x10000 ∧
    (after ready (.setVol 0) 0x4000 0).map (fun t => (t.slot 0).vol) = some 0x4000 := by decide

/-- T60.1: UNBOUND, and BAD_ARG on a bound slot. -/
theorem test_setLoop : (after (idle 0) (.setLoop 0) 2 0).map (·.err.word) = some 0x1307 ∧
    (after ready (.setLoop 0) 2 0).map (·.err.word) = some 0x1305 ∧
    (after ready (.setLoop 0) 1 0).map (flags · 0) = some 0x85 := by decide

/-- T40.12. -/
theorem test_pause : (after ready (.pause 0) 0 0).map (flags · 0) = some 0x83 := by decide

/-- T40.12. -/
theorem test_unpause : (after { ready with slots := ready.slots.set 0 { fresh 0 8 with paused := true } } (.unpause 0) 0 0).map
    (flags · 0) = some 0x81 := by decide

/-- T40.12. -/
theorem test_setDepop : (after ready (.setDepop 0) 3 0).map (flags · 0) = some 0x99 ∧
    (after ready (.setDepop 0) 4 0).map (flags · 0) = some 0x81 := by decide

/-- T40.12 and R147. -/
theorem test_setDownsample : (after ready (.setDownsample 0) 1 0).map (flags · 0) = some 0xC1 ∧
    (after ready (.setDownsample 0) 2 0).map (·.err.word) = some 0x1705 := by decide

/-- T40.10. -/
theorem test_seekStart : (after { ready with slots := ready.slots.set 0 { fresh 0 8 with pos := 6, cnt := 3, last := 3 } }
    (.seekStart 0) 0 0).map (fun t => (t.result, (t.slot 0).pos, (t.slot 0).cnt, (t.slot 0).last)) = some (1, 0, 0, 3) := by
  decide

/-- T40.1: -1001 at volume 0.5 gives -500, toward zero. -/
theorem test_fetch : (after { one 0x17 0xFC with
      slots := (idle 0).slots.set 0 { fresh 0 2 with vol := 0x8000 } } (.fetch 0)
    0 0).map (fun t => (t.result, (t.slot 0).pos, (t.slot 0).first)) = some (0x1FE0C, 2, false) := by decide

/-- P2 row 7: at rate -0.5 with ACC at 0.5 the last sample is given again, and nothing is read. -/
theorem test_fetch_repeat : (after (Spec.withSlot (idle 0) 2 { fresh 0x40 6 with
      vol := 0x8000, loop := true, rate := 0xFFFF8000, first := false, pos := 4, acc := 0x8000, last := 0xFC18
      cnt := 2 }) (.fetch 2) 0 0).map
    (fun t => (t.result, (t.slot 2).pos, (t.slot 2).acc)) = some (0x1FC18, 4, 0) := by decide

/-- T40.9: SKIP past the end of the region. -/
theorem test_skip : (after ready (.skip 0) 10 0).map (fun t => (t.result, (t.slot 0).pos, (t.slot 0).cnt, flags t 0)) =
    some (4, 8, 4, 0xA1) := by decide

/-- T40.9: SKIP of a looping region passes the loop point. -/
theorem test_skip_loop : (after { idle 0 with
      mem := [(0, 1), (2, 2), (4, 3)], slots := (idle 0).slots.set 0 { fresh 0 6 with loop := true } } (.skip 0) 7 0).map
    (fun t => (t.result, (t.slot 0).pos, (t.slot 0).last, (t.slot 0).cnt)) = some (7, 2, 1, 1) := by decide

/-- T41.4. -/
theorem test_setRate : (after ready (.setRate 0) 0xFFFFC000 0).map
    (fun t => ((t.slot 0).rate, (t.slot 0).acc, (flags t 0).extractLsb' 8 2)) = some (0xFFFFC000, 0, 2) := by decide

/-! ## The raw step -/

/-- The examples of R137 and R138: LAST = 0 and then 500 before samples of 1000; 510 bytes left of a ramp over 512. -/
theorem test_rawStep_depop :
    (rawStep (build 0) [(0, 0xE8), (1, 0x03)] { fresh 0 4 with dps := true }).map Prod.fst = some (some 500) ∧
    (rawStep (build 0) [(0, 0xE8), (1, 0x03)] { fresh 0 4 with dps := true, last := 500 }).map Prod.fst =
      some (some 750) ∧
    (rawStep (build 0) [(0, 0xE8), (1, 0x03)] { fresh 0 512 with dpe := true }).map Prod.fst = some (some 996) := by decide

/-! ## Mixer -/

/-- Samples 32767 at 0 and -32767 at 2 (T42.1): slots 0 and 2 read the first, slots 1 and 3 the second. -/
abbrev loud : Vector Slot 5 := #v[fresh 0 2, fresh 2 2, fresh 0 2, fresh 2 2, Slot.unbound]

/-- T42.1: the sums are clipped, never wrapped, then scaled by the master volume. -/
theorem test_mix_clips :
    (mix (build 0) [(0, 0xFF), (1, 0x7F), (2, 0x01), (3, 0x80)] 0x8000 loud).map (fun x => (x.word, x.count)) =
      some (0xC0003FFF, 4) ∧
    (mix { build 0 with clipSym := true } [(0, 0xFF), (1, 0x7F), (2, 0x01), (3, 0x80)] 0x10000 loud).map (·.word) =
      some 0x80017FFF := by decide

/-- T42.5, first frame: the down-sampler drops sample 1 and keeps sample 2. -/
theorem test_mix_downsamples :
    (mix (build 0) [(0, 1), (2, 2), (4, 3), (6, 4)] 0x10000 (ready.slots.set 0 { fresh 0 8 with ds := true })).map
      (fun x => (x.word, x.slots[0].pos)) = some (2, 4) := by decide

/-! ## Agents, errors, interrupts and reset -/

/-- T44.1: the second word of a buffer ends it. -/
theorem test_dma_end_of_buffer :
    (nextOf (step { streaming with agenda := [.dma], dma := { streaming.dma with idx := 1 } })).map
      (fun t => (t.tx, t.dma.wait, t.dma.idx, t.evt, t.irqStatus)) = some ([0xC8], true, 0, true, 0b1001) := by decide

/-- T60.1: the error of each word, as the next step of SEQ records it. -/
theorem test_error_words :
    [0x07, 0xFF, 0x510, 0x710, 0x101, 0x812, 0x801, 0x12].map
        (fun w => (nextOf (step ((idle 0).withFetchWord 32 w))).map (fun t => (t.err.word, t.irqStatus))) =
      [0x701#32, 0xFF01, 0x51002, 0x71002, 0x10103, 0x1203, 0x103, 0x1207].map (fun e => some (e, 0b1100)) := by decide

/-- T60.3: an overrun leaves the latched NOP. -/
theorem test_overrun :
    (nextOf (step (hosting (latched (idle 0) .nop 0 0) (.write 0x40000014 .word 0x119)))).map
      (fun t => (t.err.word, t.irqStatus, t.busy, t.latch.cw)) = some (0x11906, 0b0100, true, 0) := by decide

/-- T60.5. -/
theorem test_irq :
    { idle 0 with irqEn := 1, irqStatus := 8 }.irq = false ∧ { idle 0 with irqEn := 1, irqStatus := 9 }.irq = true ∧
    (nextOf (step (hosting { idle 0 with irqEn := 1, irqStatus := 9 } (.write 0x40000020 .word 1)))).map (·.irq) =
      some false := by decide

/-- T70.1, with 1024 frames. -/
theorem test_reset_reads :
    [Reg.id, .params, .status, .mvol, .depopParams, .slot 4 .sflags, .slot 4 .svol, .cmd].map
        (readReg (State.resetWith (build 1023) 0)) =
      [0x4D580001, 0x00150400, 0, 0x00010000, 0x02000020, 0x80, 0x10000, 0] := by decide

/-- The step after `withFetchWord` on the reset state is the command itself, and completes. -/
theorem test_fetch_word : (nextOf (step (State.reset.withFetchWord 32 0))).map (·.irqStatus) = some 0b1000 ∧
    decodeTableWord 32 0x1A = some (.skip 0) ∧ decodeTableWord 32 0x07 = none := by decide

/-! ## Witnesses: every statement with hypotheses has a case that meets all of them

Each is named after its statement and shows the hypotheses of each clause, at the edges of their ranges. -/

/-- Slot `i` of `s` is bound, keeps the slot invariant, and can be read to its end. -/
abbrev Usable (s : State) (i : Fin 5) : Prop := (s.slot i).bound = true ∧ (s.slot i).Inv ∧ (s.slot i).Readable s.build

theorem idle_slotsReadable : (idle 1).SlotsReadable := by decide

theorem ready_usable : Usable ready 0 := by decide

theorem streaming_slotsReadable : consumed.SlotsReadable := by
  intro i hb
  fin_cases i
  · decide
  · cases hb
  · cases hb
  · cases hb
  · cases hb

theorem ready_slotsReadable : ready.SlotsReadable := by
  intro i hb
  fin_cases i
  · decide
  · cases hb
  · cases hb
  · cases hb
  · cases hb

theorem consumed_inv : consumed.Inv where
  slots i := by fin_cases i <;> decide
  dma := by decide
  buffers := by decide
  mvol := by decide
  lastMix := by decide
  err := by decide
  mem := by decide

theorem witness_EncodeOfDecodeIsTheWord : decode 0x710#32 = .ok (.bind 7) := rfl

theorem witness_RegisterMapIsOneToOne : Reg.depopParams ∈ [Reg.id, .params, .status, .arg0, .arg1, .cmd, .result, .irqEn,
    .irqStatus, .err, .mvol, .dmaIdx, .depopParams] ∧ 0 < 1024 ∧ 1023 < 1024 := by decide

/-- The word 0x07 decodes to no command. -/
theorem witness_SeqStepRunsTheDecodedCommand :
    let s := latched { ready with agenda := [.seq] } (.skip 0) 3 0
    let u := latched ready .stop 0 0
    ({ s with latch := { s.latch with cw := 0x07 } }.agenda = .seq :: []) ∧
    (s.busy = true ∧ decode s.latch.cw = .ok (.skip 0) ∧ s.agenda = .seq :: []) ∧
    (u.busy = true ∧ decode u.latch.cw = .ok .stop ∧ u.agenda = [] ∧ u.host = [] ∧ u.dma.run = false ∧
      (∀ f, exec .stop u ≠ .fault f) ∧ ∀ f, seqStep u ≠ .fault f) :=
  ⟨rfl, ⟨rfl, rfl, rfl⟩, rfl, rfl, rfl, rfl, rfl, (fun _ h => by cases h), fun _ h => by cases h⟩

theorem witness_UndecodedWordRaisesItsError : (latched (idle 0) .nop 0 0).busy = true ∧
    (¬ Spec.legalOpc 0x07 ∧ ¬ Spec.legalOpc 0x0F ∧ ¬ Spec.legalOpc 0x1B ∧ ¬ Spec.legalOpc 0x1F ∧ ¬ Spec.legalOpc 0x21 ∧
      ¬ Spec.legalOpc 0xFF) ∧
    (Spec.legalOpc ((0x801#32).extractLsb' 0 8) ∧ (0x801#32).extractLsb' 11 21 ≠ 0 ∧
      Spec.legalOpc ((0x80000020#32).extractLsb' 0 8) ∧ (0x80000020#32).extractLsb' 11 21 ≠ 0) ∧
    (((0x706#32).extractLsb' 0 8).toNat ≤ 6 ∧ (0x706#32).extractLsb' 8 3 ≠ 0) := by
  unfold Spec.legalOpc
  decide

theorem witness_CmdWriteLatchesOrOverruns :
    let s := hosting (idle 0) (.write (Spec.regAddr (idle 0) 5) .word 0x119)
    let u := hosting (latched (idle 0) .nop 0 0) (.write (Spec.regAddr (idle 0) 5) .word 0x119)
    (s.agenda = .host :: [] ∧ s.host = .write (Spec.regAddr s 5) .word 0x119 :: [] ∧ s.busy = false) ∧
    (u.agenda = .host :: [] ∧ u.host = .write (Spec.regAddr u 5) .word 0x119 :: [] ∧ u.busy = true) := by decide

theorem witness_HostWritesReachTheirRegisters :
    ∀ k ∈ [3, 4, 7, 8],
      let s := hosting (idle 0) (.write (Spec.regAddr (idle 0) k) .word 0xFFFFFFFF)
      s.agenda = .host :: [] ∧ s.host = .write (Spec.regAddr s k) .word 0xFFFFFFFF :: [] := by decide

theorem witness_AccessRulesOfTheRegisterMap :
    (∀ k ∈ [0, 9, 13, 0x40, 0xFFF],
      let s := hosting (idle 0) (.write (Spec.regAddr (idle 0) k) .word 1)
      let u := hosting (idle 0) (.read (Spec.regAddr (idle 0) k) .word)
      k < 0x1000 ∧ s.agenda = .host :: [] ∧ s.host = .write (Spec.regAddr s k) .word 1 :: [] ∧ k ≠ 3 ∧ k ≠ 4 ∧ k ≠ 5 ∧
        k ≠ 7 ∧ k ≠ 8 ∧ u.agenda = .host :: [] ∧ u.host = .read (Spec.regAddr u k) .word :: []) ∧
    (∀ k ∈ [5, 13, 0x3F, 0x4A, 0x8F, 0x90, 0x3FF, 0x401, 0x801, 0xFFF],
      k = 5 ∨ (13 ≤ k ∧ k < 0x40) ∨ (0x90 ≤ k ∧ k < 0x400) ∨ (0x40 ≤ k ∧ k < 0x90 ∧ 10 ≤ (k - 0x40) % 16) ∨
        (0x400 ≤ k ∧ nFrames (build 0) ≤ (k - 0x400) % 0x400)) := by decide

theorem witness_OtherAccessesAreBusErrors :
    ((0x40000001#32 - (build 0).mmioBase).toNat < 0x4000 ∧ (0x40000001#32 - (build 0).mmioBase).toNat % 4 ≠ 0) ∧
    ((0x40003FFF#32 - (build 0).mmioBase).toNat < 0x4000 ∧ (0x40003FFF#32 - (build 0).mmioBase).toNat % 4 ≠ 0) ∧
    ((0x40003FFC#32 - (build 0).mmioBase).toNat < 0x4000 ∧ (0x40003FFC#32 - (build 0).mmioBase).toNat % 4 = 0) ∧
    Width.half ≠ .word := by decide

theorem witness_WaitReadsUntilTheValueIsThere :
    let s := hosting (idle 0) (.poll (Spec.regAddr (idle 0) 2) 0x10 0)
    s.agenda = .host :: [] ∧ 2 < 0x1000 ∧ s.host = .poll (Spec.regAddr s 2) 0x10 0 :: [] ∧
      readReg s (regAt 2) &&& 0x10 = 0 ∧ readReg { s with evt := true } (regAt 2) &&& 0x08 ≠ 0 := by decide

/-- A slot bound to bytes 16 to 23: 15 and 24 lie outside its region, 16 and 23 inside. -/
theorem witness_SampleStoreWritesItsByteOnly :
    let s := Spec.withSlot (hosting (idle 0) (.store 24 1)) 0 (fresh 16 8)
    s.agenda = .host :: [] ∧ s.host = .store 24 1 :: [] ∧ Memory.wf s.mem = true ∧
    (∀ i : Fin 5, (s.slot i).bound = true →
      (15#32).toNat < (s.slot i).base.toNat ∨ (s.slot i).base.toNat + (s.slot i).len.toNat ≤ (15#32).toNat) ∧
    (∀ i : Fin 5, (s.slot i).bound = true →
      (24#32).toNat < (s.slot i).base.toNat ∨ (s.slot i).base.toNat + (s.slot i).len.toNat ≤ (24#32).toNat) ∧
    (s.slot 0).bound = true ∧ (s.slot 0).base.toNat ≤ (16#32).toNat ∧
      (23#32).toNat < (s.slot 0).base.toNat + (s.slot 0).len.toNat := by decide

/-- Among them a FETCH whose sample lies at 0x2000, where nothing can be read: SEQ is stuck. -/
theorem witness_TurnWithoutStepChangesNothing :
    let u := latched (Spec.withSlot (idle 0) 0 (fresh 0x2000 2)) (.fetch 0) 0 0
    (({ idle 0 with agenda := [.seq] }.agenda = .seq :: [] ∧ (idle 0).busy = false) ∧
      ({ consumed with agenda := [.dma] }.agenda = .dma :: [] ∧ consumed.dma.wait = true) ∧
      ({ idle 0 with agenda := [.host] }.agenda = .host :: [] ∧ (idle 0).host = []) ∧
      ((idle 0).agenda = [] ∧ (idle 0).dma.run = false)) ∧
    u.agenda = [] ∧ u.host = [] ∧ u.busy = true ∧ decode u.latch.cw = .ok (.fetch 0) ∧
      exec (.fetch 0) u = .fault .sampleReadNotAdmitted ∧ u.dma.run = false :=
  ⟨by decide, rfl, rfl, rfl, rfl, rfl, rfl⟩

theorem witness_DmaStepEmitsOneFrame :
    let s := { streaming with agenda := [.dma] }
    let u := { s with dma := { s.dma with idx := 1 } }
    (s.agenda = .dma :: [] ∧ s.dma.run = true ∧ s.dma.wait = false ∧ s.dma.idx.toNat + 1 < nFrames s.build) ∧
    (u.agenda = .dma :: [] ∧ u.dma.run = true ∧ u.dma.wait = false ∧ u.dma.idx.toNat + 1 = nFrames u.build) := by decide

theorem witness_DmaDrainsItsBufferInOrder :
    let s := { streaming with agenda := [.dma, .dma, .seq] }
    s.BuffersInv ∧ s.agenda = List.replicate (nFrames s.build) .dma ++ [.seq] ∧ s.dma.run = true ∧ s.dma.wait = false ∧
      s.dma.idx = 0 := by decide

theorem witness_SetRateModeChecksStateThenOperand :
    (idle 0).mode = .idle ∧ streaming.mode ≠ .idle ∧ (latched (idle 0) .setRateMode 22050 0).latch.a0 = 22050#32 ∧
    (latched (idle 0) .setRateMode 44100 0).latch.a0 = 44100#32 ∧
    (latched (idle 0) .setRateMode 22051 0).latch.a0 ≠ 22050#32 ∧
    (latched (idle 0) .setRateMode 22051 0).latch.a0 ≠ 44100#32 := by decide

theorem witness_StartPrimesTheBuffersAndStreams :
    (ready.mode = .idle ∧ ready.SlotsReadable) ∧ streaming.mode ≠ .idle :=
  ⟨⟨rfl, ready_slotsReadable⟩, by decide⟩

theorem witness_TickSwapsCopiesAndRemixes :
    (idle 0).mode ≠ .streaming ∧ (streaming.mode = .streaming ∧ streaming.evt = false) ∧
    (consumed.mode = .streaming ∧ consumed.evt = true ∧ consumed.SlotsReadable) :=
  ⟨by decide, ⟨rfl, rfl⟩, rfl, rfl, streaming_slotsReadable⟩

theorem witness_BindAndUnbindReplaceTheSlot :
    (0xFFFFFFFF#32).toNat + (1#32).toNat ≤ 2 ^ 32 ∧ 2 ^ 32 < (0xFFFFFFFF#32).toNat + (2#32).toNat := by decide

theorem witness_VolumeCommandsClamp : (ready.slot 0).bound = true := by decide

theorem witness_FlagCommandsWriteTheirFlag :
    (ready.slot 0).bound = true ∧ (0#32).toNat < 2 ∧ (1#32).toNat < 2 ∧ 2 ≤ (2#32).toNat := by decide

theorem witness_SetDepopWritesBothEnables : (ready.slot 0).bound = true ∧ (3#32).toNat < 4 ∧ 4 ≤ (4#32).toNat := by decide

theorem witness_PauseUnpauseAndSeekComplete : (ready.slot 0).bound = true := by decide

theorem witness_SetRateTakesEveryRate : (ready.slot 0).bound = true := by decide

theorem witness_FetchReturnsOneRateStep : Usable ready 0 := ready_usable

/-- The raw step: the last sample of a region, with every shaping step on, and a slot that starts exhausted and rewinds; then
one without a whole sample. The plain FETCH: without looping the last sample, with looping the last but one, where the
hypotheses just hold. -/
theorem witness_FetchOfPlainStreamReturnsTheStoredSample :
    let c := { fresh 0 8 with pos := 6, vol := 0x8000, dps := true, dpe := true, last := 3 }
    let d := { fresh 0 9 with pos := 8, loop := true, cnt := 4 }
    let s := Spec.withSlot ready 0 { fresh 0 8 with pos := 6 }
    let u := Spec.withSlot ready 0 { fresh 0 8 with pos := 4, loop := true }
    (Spec.readPos c = 6 ∧ Spec.readPos c + 2 ≤ c.len.toNat ∧ memRead (build 0) samples4 6 = some 0x90 ∧
      memRead (build 0) samples4 7 = some 0x01 ∧ Spec.readPos d = 0 ∧ Spec.readPos d + 2 ≤ d.len.toNat ∧
      memRead (build 0) samples4 0 = some 0x64 ∧ memRead (build 0) samples4 1 = some 0x00) ∧
    ((fresh 0 1).len.toNat < Spec.readPos (fresh 0 1) + 2 ∧
      { fresh 0 1 with loop := true }.len.toNat < Spec.readPos { fresh 0 1 with loop := true } + 2) ∧
    ((s.slot 0).bound = true ∧ (s.slot 0).rate = 0 ∧ (s.slot 0).vol = 0x10000 ∧ (s.slot 0).dps = false ∧
      (s.slot 0).dpe = false ∧ (s.slot 0).pos.toNat + 2 ≤ (s.slot 0).len.toNat ∧ (s.slot 0).loop = false ∧
      memRead s.build s.mem ((s.slot 0).base.toNat + (s.slot 0).pos.toNat) = some 0x90 ∧
      memRead s.build s.mem ((s.slot 0).base.toNat + (s.slot 0).pos.toNat + 1) = some 0x01) ∧
    ((u.slot 0).bound = true ∧ (u.slot 0).rate = 0 ∧ (u.slot 0).vol = 0x10000 ∧ (u.slot 0).dps = false ∧
      (u.slot 0).dpe = false ∧ (u.slot 0).loop = true ∧ (u.slot 0).pos.toNat + 4 ≤ (u.slot 0).len.toNat ∧
      memRead u.build u.mem ((u.slot 0).base.toNat + (u.slot 0).pos.toNat) = some 0x2C ∧
      memRead u.build u.mem ((u.slot 0).base.toNat + (u.slot 0).pos.toNat + 1) = some 0x01) := by decide

theorem witness_SkipReturnsTheSamplesSkipped :
    (Usable ready 0 ∧ Usable (Spec.withSlot ready 0 { fresh 0 2 with loop := true }) 0 ∧ 2 ≤ (fresh 0 2).len.toNat) ∧
      (skipN (build 0) samples4 4 (fresh 0 8)).map Prod.fst = some 4 ∧
      (skipN (build 0) samples4 5 (fresh 0 8)).map Prod.fst = some 4 := by decide

theorem witness_SlotsFiveToSevenAreBadSlot :
    (Instr.bind 5).slotField = some 5 ∧ (Instr.setRate 7).slotField = some 7 ∧ 5 ≤ (5#3).toNat ∧ 5 ≤ (7#3).toNat := by decide

theorem witness_CommandsOnAnUnboundSlotAreUnbound :
    (Instr.fetch 4).slotField = some (slotNo 4) ∧ Instr.fetch 4 ≠ .bind (slotNo 4) ∧ Instr.fetch 4 ≠ .unbind (slotNo 4) ∧
      ((idle 0).slot 4).bound = false := by decide

theorem witness_EveryCommandCompletesWithDone :
    let s := latched (idle 0) .nop 0 0
    s.busy = true ∧ seqStep s = .next (Spec.completed s 0) ∧ exec .nop s = .next (Spec.completed s 0) := ⟨rfl, rfl, rfl⟩

theorem witness_CommandErrorsArePrecise :
    let s := latched (idle 0) (.fetch 4) 0 0
    s.busy = true ∧ seqStep s = .next (Spec.failed s 7) ∧ exec (.fetch 4) s = .next (Spec.failed s 7) ∧
      exec .nop s = .next (Spec.completed s 0) := ⟨rfl, rfl, rfl, rfl⟩

theorem witness_CommandsLeaveMemoryAndInputsAlone : exec .stop ready = .next (Spec.completed
    { ready with dma := { run := false, wait := false, ptr := .a, idx := 0 }, evt := false, mode := .idle } 0) := rfl

theorem witness_SlotCommandsWriteOnlyTheirSlot :
    (Instr.unbind 0).slotField = some 0 ∧
      exec (.unbind 0) ready = .next (Spec.completed (Spec.withSlot ready 0 Slot.unbound) 0) := ⟨rfl, rfl⟩

theorem witness_HardwareOwnedBufferIsNeverWritten :
    consumed.mode = .streaming ∧ (nextOf (exec .tick consumed)).isSome = true := by decide

theorem witness_OnlyStartAndStopChangeTheEngineState :
    streaming.mode ≠ .priming ∧ (nextOf (exec .stop streaming)).isSome = true ∧
      ready.mode ≠ .priming ∧ (nextOf (exec .start ready)).isSome = true := by decide

theorem witness_AttenuatorIsExact : (0#17).toNat ≤ 0x10000 ∧ (0xFFFF#17).toNat ≤ 0x10000 ∧ (0x10000#17).toNat ≤ 0x10000 := by
  decide

theorem witness_LoopingSlotAlwaysGivesASample :
    let c := { fresh 0 2 with loop := true }
    let d := { fresh 0 9 with loop := true, pos := 6 }
    let e := { fresh 0 9 with loop := true, pos := 8 }
    (c.Inv ∧ c.Readable (build 0) ∧ c.loop = true ∧ 2 ≤ c.len.toNat) ∧
    (c.pos.toNat + 2 ≤ c.len.toNat ∧ c.len.toNat < c.pos.toNat + 4 ∧
      (rawStep (build 0) samples4 c).map Prod.fst = some (some 100)) ∧
    (d.loop = true ∧ d.pos.toNat + 2 ≤ d.len.toNat ∧ d.len.toNat < d.pos.toNat + 4 ∧
      (rawStep (build 0) samples4 d).map Prod.fst = some (some 400)) ∧
    (e.loop = true ∧ e.len.toNat < e.pos.toNat + 2) := by decide

theorem witness_UnloopedPassGivesAtMostHalfTheBytes :
    (fresh 0 5).loop = false ∧ (fresh 0 5).pos = 0 ∧
      (skipN (build 0) [] 9 (fresh 0 5)).map Prod.fst = some 2 := by decide

theorem witness_EndedSlotGivesNothing :
    let c := { fresh 0 8 with pos := 8 }
    c.bound = true ∧ c.len.toNat ≤ c.pos.toNat ∧ c.loop = false := by decide

theorem witness_FirstRateStepIsPlain :
    (fresh 0 2).ended = false ∧ (fresh 0 2).first = true ∧ (rateStep (build 0) [] (fresh 0 2)).isSome = true := by decide

theorem witness_SkipModeDropsTheWholeUnits :
    let c := { fresh 0 8 with first := false, rate := 1, acc := 0xFFFF }
    c.ended = false ∧ c.first = false ∧ 0 < c.rate.toInt ∧ c.acc.toNat < 0x10000 ∧
      (rateStep (build 0) samples4 c).isSome = true := by decide

theorem witness_RepeatModeReemitsTheLastSample :
    let c := { fresh 0 8 with first := false, rate := 0xFFFF0000 }
    let d := { fresh 0 8 with first := false, rate := 0xFFFF0001 }
    (c.ended = false ∧ c.first = false ∧ c.rate.toInt < 0 ∧ 65536 ≤ c.acc.toNat + c.rate.toInt.natAbs) ∧
    (d.ended = false ∧ d.first = false ∧ d.rate.toInt < 0 ∧ d.acc.toNat + d.rate.toInt.natAbs < 65536) := by decide

theorem witness_RateRoundTripLosesNothing :
    (ready.slot 0).bound = true ∧ (fresh 0 8).rate = 0 ∧ (fresh 0 8).ended = false := by decide

/-- An unbound slot, a paused one and an ended one; an eligible slot of one byte, which gives no sample; and a paused slot
beside a playing one. -/
theorem witness_IneligibleSlotsAreLeftAlone :
    (Spec.Skipped Slot.unbound ∧ Spec.Skipped { fresh 0 8 with paused := true } ∧ Spec.Skipped { fresh 0 8 with pos := 8 }) ∧
    (∀ k : Fin 5, Spec.Skipped (idle 0).slots[k.val]) ∧
    (¬ Spec.Skipped (fresh 0 1) ∧ ∀ k : Fin 5,
      (mixSlot (build 0) [] ((idle 0).slots.set 0 (fresh 0 1))[k.val]).map Prod.fst = some none) ∧
    (Spec.Skipped (ready.slots.set 1 { fresh 0 8 with paused := true })[1] ∧
      (mix (build 0) samples4 0x10000 (ready.slots.set 1 { fresh 0 8 with paused := true })).isSome = true ∧
      (mixLoop (build 0) samples4 0x10000 2 (ready.slots.set 1 { fresh 0 8 with paused := true }) 0).isSome = true) := by
  decide

/-- The slot that has ended a pass but loops is not skipped. -/
theorem witness_DownSamplerDiscardsOneStep :
    let c := { fresh 0 8 with ds := true, pos := 4 }
    let d := { fresh 0 8 with ds := true, pos := 5 }
    let e := { fresh 0 8 with loop := true, pos := 8 }
    (¬ Spec.Skipped c ∧ c.ds = true ∧ c.pos.toNat + 4 ≤ c.len.toNat ∧ (rateStep (build 0) samples4 c).isSome = true) ∧
    (¬ Spec.Skipped d ∧ d.len.toNat < d.pos.toNat + 4) ∧ (¬ Spec.Skipped e ∧ e.ds = false) := by decide

/-- Five slots, four of which contribute (T42.1); then one alone. -/
theorem witness_SingleSlotGoesToItsChannel :
    (∀ k : Fin 5, (mixSlot (build 0) [(0, 0xFF), (1, 0x7F), (2, 0x01), (3, 0x80)] loud[k.val]).map Prod.fst =
      some (if k.val = 4 then none else if k.val % 2 = 0 then some 0x7FFF else some 0x8001)) ∧
    (∀ j : Fin 5, j ≠ 0 → Spec.Skipped ready.slots[j.val]) ∧
    mixSlot (build 0) samples4 ready.slots[0] =
      some (some 100, { fresh 0 8 with first := false, pos := 2, last := 100, cnt := 1 }) ∧ (build 0).clipSym = false := by
  decide

theorem witness_ResetRegistersReadAsSpecified : Reg.err ∈ [Reg.status, .arg0, .arg1, .cmd, .result, .irqEn, .irqStatus, .err,
    .dmaIdx] := by decide

theorem witness_ResetTurnGivesTheResetState : { streaming with agenda := [.reset], busy := true }.agenda = .reset :: [] := rfl

theorem witness_EveryStepKeepsTheInvariant : consumed.Inv ∧ step consumed = .next consumed := ⟨consumed_inv, rfl⟩

/-- The readable memory ends at 0x1000: of a sample at 0xFFF only the lower byte can be read; the second of two samples from
0xFFE lies outside. Repeat mode just below 1.0 still takes a raw step. -/
theorem witness_ReadableSlotsNeverStickTheSequencer :
    (consumed.Inv ∧ consumed.SlotsReadable) ∧
    (Spec.Admitted (build 0) 0xFFF ∧ ¬ Spec.Admitted (build 0) 0x1000) ∧
    (let c := { fresh 0xFFF 2 with first := false, rate := 0xFFFF0001 }
     let s := Spec.withSlot consumed 0 c
     c.bound = true ∧ ¬ Spec.Skipped c ∧ Spec.TakesRawStep c ∧ Spec.NextRawStepStuck (build 0) c ∧
      (Spec.withSlot (idle 0) 0 c).mode = .idle ∧ s.mode = .streaming ∧ s.evt = true) ∧
    (let s := latched (Spec.withSlot (idle 0) 4 (fresh 0xFFE 4)) (.skip 4) 2 0
     (s.slot 4).bound = true ∧ 1 < s.latch.a0.toNat ∧
      ∃ c, skipN s.build s.mem 1 (s.slot 4) = some (1, c) ∧ Spec.NextRawStepStuck s.build c) :=
  ⟨⟨consumed_inv, streaming_slotsReadable⟩, by decide, by decide, by decide, by decide, _, rfl, by decide⟩

end Sys2Proof.Tests
end

section
/-! The interrupt output (spec/10_state.md R67): the level read bit by bit. -/

namespace Sys2Proof.Machine

/-- A word is nonzero exactly when one of its bits is set. -/
theorem ne_zero_iff_exists_getLsbD {w : Nat} (x : BitVec w) : x ≠ 0 ↔ ∃ n < w, x.getLsbD n = true := by
  rw [Ne, BitVec.eq_of_getLsbD_eq_iff]
  simp

/-- IRQ as R67 states it: some bit of IRQ_STATUS & IRQ_EN is set. -/
theorem State.irq_iff_and_ne_zero (s : State) : s.irq = true ↔ s.irqStatus &&& s.irqEn ≠ 0 :=
  decide_eq_true_iff

/-- Settles O53: the masked status is nonzero exactly when one of its four bits is set. -/
theorem irqIsTheOrOfEnabledCauses : Obligations.IrqIsTheOrOfEnabledCauses := by
  intro s
  rw [State.irq_iff_and_ne_zero, ne_zero_iff_exists_getLsbD]
  simp only [BitVec.getLsbD_and, Bool.and_eq_true]

end Sys2Proof.Machine
end

section
/-! Host access to the register window (spec/20_memory.md R86): what an access does inside the window, said once for reads,
writes and polls. -/

namespace Sys2Proof.Machine

/-- An access inside the window that is not an aligned 32-bit one never reaches a register (R86). -/
theorem access_eq_busError {s : State} {addr : Word} {w : Width} (k : Reg → State)
    (hin : offsetOf s.build addr < windowBytes) (hbad : w ≠ .word ∨ offsetOf s.build addr % 4 ≠ 0) :
    access s addr w k = .refused .busError := by
  have haligned : ¬(w = .word ∧ offsetOf s.build addr % 4 = 0) := by
    rintro ⟨hw, hoff⟩
    exact hbad.elim (· hw) (· hoff)
  rw [access, if_neg (Nat.not_le.mpr hin), if_neg haligned]

/-- An aligned 32-bit access inside the window reaches the register at its offset (R33, R86). -/
theorem access_word_eq_next {s : State} {addr : Word} (k : Reg → State) (hin : offsetOf s.build addr < windowBytes)
    (hoff : offsetOf s.build addr % 4 = 0) :
    access s addr .word k = .next (k (regAt (offsetOf s.build addr / 4))) := by
  rw [access, if_neg (Nat.not_le.mpr hin), if_pos ⟨rfl, hoff⟩]

/-- Settles O11: reads, writes and polls are each one `access`, which refuses or reaches the register by width and offset. -/
theorem otherAccessesAreBusErrors : Obligations.OtherAccessesAreBusErrors := by
  intro s addr w v mask hin
  simp only [hostAction]
  refine ⟨fun hbad => ⟨?read, ?write⟩, fun hoff => ?poll, fun hoff => ⟨?readWord, ?writeWord⟩⟩
  case read => exact access_eq_busError _ hin hbad
  case write => exact access_eq_busError _ hin hbad
  case poll => exact access_eq_busError _ hin (.inr hoff)
  case readWord => exact access_word_eq_next _ hin hoff
  case writeWord => exact access_word_eq_next _ hin hoff

end Sys2Proof.Machine
end

section
/-! Words that hold no command (spec/30_encoding.md R102, R103, R105, R107): what the opcode map answers, what the decoder
answers, and what the turn of SEQ makes of it. -/

namespace Sys2Proof.Machine

/-- The opcode map (R105) said once: nothing outside the legal opcodes, and inside them a command that takes no slot exactly
in the engine group. -/
theorem commandOf_cases (opc : BitVec 8) (n : BitVec 3) :
    (¬ Spec.legalOpc opc ∧ commandOf opc n = none) ∨
    (Spec.legalOpc opc ∧ ∃ i, commandOf opc n = some i ∧ (i.slotField = none ↔ opc.toNat ≤ 0x06)) := by
  unfold commandOf Spec.legalOpc
  split
  case h_20 =>
    refine .inl ⟨?_, rfl⟩
    simp only [imp_false] at *
    omega
  all_goals exact .inr ⟨by omega, _, rfl, by simp [Instr.slotField, *]⟩

/-- An opcode that holds no command is illegal whatever the other fields are (R107). -/
theorem decode_eq_illegalOpcode {cw : Word} (h : ¬ Spec.legalOpc (opcOf cw)) : decode cw = .error .illegalOpcode := by
  obtain ⟨-, hnone⟩ | ⟨hlegal, -⟩ := commandOf_cases (opcOf cw) (slotOf cw)
  · rw [decode, hnone]
  · exact absurd hlegal h

/-- Under an opcode that holds a command, a nonzero reserved field is refused: RSV (R103), or SLOT in an engine command
(R102). -/
theorem decode_eq_reserved {cw : Word} (hlegal : Spec.legalOpc (opcOf cw))
    (h : rsvOf cw ≠ 0 ∨ ((opcOf cw).toNat ≤ 0x06 ∧ slotOf cw ≠ 0)) : decode cw = .error .reserved := by
  obtain ⟨hillegal, -⟩ | ⟨-, i, hi, hengine⟩ := commandOf_cases (opcOf cw) (slotOf cw)
  · exact absurd hlegal hillegal
  · rw [decode, hi]
    by_cases hrsv : rsvOf cw ≠ 0
    · exact if_pos hrsv
    · have hslot : i.slotField = none ∧ slotOf cw ≠ 0 := (h.resolve_left hrsv).imp_left hengine.mpr
      exact (if_neg hrsv).trans (if_pos hslot)

/-- Taking a command error is the state R275 writes out. -/
theorem State.raiseError_eq_failed (s : State) (e : CmdError) : s.raiseError e = Spec.failed s e.code := by
  have hirq : s.irqStatus ||| Cause.err.mask ||| Cause.done.mask = s.irqStatus ||| 0b1100#4 := BitVec.or_assoc ..
  exact congrArg (fun q => { s.raiseError e with irqStatus := q }) hirq

/-- A latched word that does not decode, at the turn of SEQ. -/
theorem seqStep_undecoded {s : State} {e : DecodeError} (hb : s.busy = true) (hd : decode s.latch.cw = .error e) :
    seqStep s = .next (Spec.failed s (decodeErrorCode e).code) := by
  unfold seqStep
  rw [if_pos hb, hd, ← State.raiseError_eq_failed]

/-- Settles O7: each clause is one refusal of the decoder, taken at the turn of SEQ. -/
theorem undecodedWordRaisesItsError : Obligations.UndecodedWordRaisesItsError := by
  intro s hb
  refine ⟨fun hillegal => ?opcode, fun hlegal hrsv => ?rsv, fun hengine hslot => ?slot⟩
  case opcode => exact seqStep_undecoded hb (decode_eq_illegalOpcode hillegal)
  case rsv => exact seqStep_undecoded hb (decode_eq_reserved hlegal (.inl hrsv))
  case slot => exact seqStep_undecoded hb (decode_eq_reserved (.inl hengine) (.inr ⟨hengine, hslot⟩))

end Sys2Proof.Machine
end

section
/-! The volume attenuator (spec/40_sample_path.md R136): scaling a sample by a fraction of at most 1 stays inside int16, so
narrowing the quotient loses nothing. -/

namespace Sys2Proof.Machine

/-- A sample scaled by `n / d`, at most 1, toward zero is an int16 value: narrowing leaves it exact. -/
theorem toInt_ofInt16_trunc0_mul (x : Sample) {n d : Nat} (hd : 0 < d) (hle : n ≤ d) :
    (BitVec.ofInt 16 (trunc0 (x.toInt * n) d)).toInt = (x.toInt * n).tdiv d := by
  obtain ⟨hxlo, hxhi⟩ := sample_range x
  have hlo : -32768 * (d : Int) ≤ x.toInt * n :=
    calc -32768 * (d : Int) ≤ -32768 * n := by omega
      _ ≤ x.toInt * n := Int.mul_le_mul_of_nonneg_right hxlo (Int.natCast_nonneg n)
  have hhi : x.toInt * n < (32767 + 1) * (d : Int) :=
    calc x.toInt * n ≤ 32767 * n := Int.mul_le_mul_of_nonneg_right hxhi (Int.natCast_nonneg n)
      _ < (32767 + 1) * (d : Int) := by omega
  obtain ⟨hqlo, hqhi⟩ := trunc0_mem (by omega) (by decide) (by decide) hlo hhi
  exact toInt_ofInt16 hqlo hqhi

/-- Settles O40: below 1.0 the volume is a fraction of 65536; from 1.0 on the attenuator does not touch the sample. -/
theorem attenuatorIsExact : Obligations.AttenuatorIsExact := by
  intro x v _
  unfold attenuate
  by_cases hv : v.toNat < 0x10000
  · rw [if_pos hv, if_pos hv]
    exact toInt_ofInt16_trunc0_mul x (by decide) hv.le
  · rw [if_neg hv, if_neg hv]

end Sys2Proof.Machine
end

section
/-! The mode switch of the resampler (spec/41_resampler.md R181, R183, R189): what SET_RATE does to a bound slot, and what a
rate step is at RATE = 0. -/

namespace Sys2Proof.Machine

/-- SET_RATE on a bound slot (R181) takes the operand as RATE, clears ACC and completes with RESULT = 0. -/
theorem exec_setRate_of_bound {s : State} {i : Fin 5} (hb : (s.slot i).bound = true) :
    exec (.setRate (slotNo i)) s =
      .next ((s.setSlot i { s.slot i with rate := s.latch.rate, acc := 0 }).finish 0) := by
  rw [exec, execSetRate, onBoundSlot_slotNo hb]

/-- SET_RATE with operand `r`, latched as any word: the slot afterwards is the slot before but for RATE and ACC. -/
theorem exec_setRate_slot {s : State} {i : Fin 5} (hb : (s.slot i).bound = true) (cw r a1 : Word) :
    ∃ t, exec (.setRate (slotNo i)) { s with latch := { cw := cw, a0 := r, a1 := a1 } } = .next t ∧
      t.slot i = { s.slot i with rate := r, acc := 0 } :=
  ⟨_, exec_setRate_of_bound hb, State.slot_setSlot_same _ i _⟩

/-- RATE = 0 (R183): the first sample is a raw step with FIRST cleared, and on a later one FIRST is clear already. -/
theorem rateStep_of_rate_zero (b : Build) (m : List Host.Cell) {c : Slot} (hrate : c.rate = 0) (he : c.ended = false) :
    rateStep b m c = rawStep b m { c with first := false } := by
  have hzero : c.rate.toInt = 0 := hrate ▸ BitVec.toInt_zero
  cases hf : c.first with
  | true => simp [rateStep, he, hf]
  | false =>
    have hclear : { c with first := false } = c := by rw [← hf]
    simp [rateStep, he, hf, hzero, hclear]

/-- Settles O48: the second SET_RATE overwrites all that the first one wrote, and RATE = 0 selects the raw step. -/
theorem rateRoundTripLosesNothing : Obligations.RateRoundTripLosesNothing := by
  intro s i r a1 hb
  obtain ⟨s1, hexec1, hslot1⟩ := exec_setRate_slot hb (encode (.setRate (slotNo i))) r a1
  have hb1 : (s1.slot i).bound = true := by rw [hslot1]; exact hb
  obtain ⟨s2, hexec2, hslot2⟩ := exec_setRate_slot hb1 (encode (.setRate (slotNo i))) 0 a1
  have hback : s2.slot i = { s.slot i with rate := 0, acc := 0 } := by rw [hslot2, hslot1]
  exact ⟨s1, s2, hexec1, hexec2, hback, fun b m _ hrate he => rateStep_of_rate_zero b m hrate he⟩

end Sys2Proof.Machine
end

section
/-! The clipping unit (spec/42_mixer.md R207): CLIP_LO lies between the least int16 and CLIP_HI whatever CLIP_SYM is, so a
clipped sum lies in int16 and narrowing it to a sample wraps nothing. -/

namespace Sys2Proof.Machine

theorem clipLo_ge (b : Build) : -32768 ≤ clipLo b := by
  unfold clipLo
  split <;> decide

theorem clipLo_le_clipHi (b : Build) : clipLo b ≤ clipHi := by
  unfold clipLo
  split <;> decide

/-- The clipped sum as an integer: the clamp itself, with no truncation to 16 bits left. -/
theorem toInt_clip (b : Build) (v : Int) : (clip b v).toInt = clamp v (clipLo b) clipHi := by
  obtain ⟨hlo, hhi⟩ := clamp_mem (v := v) (clipLo_le_clipHi b)
  exact toInt_ofInt16 ((clipLo_ge b).trans hlo) hhi

/-- Settles O49: the narrowed clamp is the clamp, and the clamp is a maximum of a minimum. -/
theorem clipNeverWraps : Obligations.ClipNeverWraps := by
  refine ⟨fun b v => ?_, rfl⟩
  calc (clip b v).toInt = clamp v (clipLo b) clipHi := toInt_clip b v
    _ = max (clipLo b) (min v clipHi) := clamp_eq v _ _ (clipLo_le_clipHi b)

end Sys2Proof.Machine
end

section
/-! Completion (spec/43_engine.md R222): every SEQ step, of a command that succeeds or of one that errs, ends in
`State.complete`, and before it a command only sets causes (spec/60_exceptions.md R278). -/

namespace Sys2Proof.Machine

/-- Setting bits of a word loses none of its own. -/
theorem and_or_self_left {w : Nat} (x y : BitVec w) : x &&& (x ||| y) = x := by
  ext k
  rw [BitVec.getElem_and, BitVec.getElem_or]
  exact inf_sup_self

/-- The step from `s` to `t` ends in Complete(), after setting at most some causes `p`. -/
def CompletesFrom (s t : State) : Prop :=
  ∃ (u : State) (p : BitVec 4), u.irqStatus = s.irqStatus ||| p ∧ t = u.complete

/-- What a completion shows the host (R222, R278): BUSY is clear, DONE is set, and no pending cause is lost. -/
theorem CompletesFrom.idle_done_pending {s t : State} (h : CompletesFrom s t) :
    t.busy = false ∧ t.irqStatus.getLsbD 3 = true ∧ s.irqStatus &&& t.irqStatus = s.irqStatus := by
  obtain ⟨u, p, hu, rfl⟩ := h
  rw [State.complete_irqStatus, hu]
  refine ⟨u.complete_busy, ?done, ?pending⟩
  case done =>
    have hmask : Cause.done.mask.getLsbD 3 = true := rfl
    rw [BitVec.getLsbD_or, hmask, Bool.or_true]
  case pending => rw [BitVec.or_assoc, and_or_self_left]

theorem completesFrom_raiseError (s : State) (e : CmdError) : CompletesFrom s (s.raiseError e) :=
  ⟨s.recordError e s.latch.cw, Cause.err.mask, rfl, rfl⟩

/-- A command that sets no cause of its own before it returns `r`. -/
theorem completesFrom_finish {s u : State} (hu : u.irqStatus = s.irqStatus) (r : Word) : CompletesFrom s (u.finish r) :=
  ⟨{ u with result := r }, 0, hu.trans (BitVec.or_zero).symm, rfl⟩

/-- The end of an active TICK sets FINISHED or nothing (R230). -/
theorem completesFrom_finishTick {s u : State} (hu : u.irqStatus = s.irqStatus) : CompletesFrom s (finishTick u) := by
  unfold finishTick
  split
  · exact ⟨{ u.setCause .finished with result := 1 }, Cause.finished.mask, congrArg (· ||| Cause.finished.mask) hu, rfl⟩
  · exact completesFrom_finish hu 0

/-- Every slot command completes: it errs, or writes its slot, which holds no cause. -/
theorem completesFrom_slotCommand {i : Instr} {n : BitVec 3} {s t : State} (hn : i.slotField = some n)
    (h : exec i s = .next t) : CompletesFrom s t := by
  obtain ⟨e, rfl⟩ | ⟨k, -, c, r, rfl, -⟩ := exec_slotCommand hn h
  · exact completesFrom_raiseError s e
  · exact completesFrom_finish (s.setSlot_irqStatus k c) r

/-- Every command that answers a next state completes (R222). -/
theorem exec_completesFrom {i : Instr} {s t : State} (h : exec i s = .next t) : CompletesFrom s t := by
  cases i with
  | nop | stop | clearAll | setMasterVol =>
    cases h
    exact completesFrom_finish (by rfl) 0
  | start =>
    obtain ⟨-, rfl⟩ | ⟨-, fa, fb, fc, -, rfl⟩ := execStart_cases h
    · exact completesFrom_raiseError s .badState
    · exact completesFrom_finish (by rfl) 0
  | tick =>
    obtain ⟨-, rfl⟩ | ⟨-, -, f, -, rfl⟩ := execTick_cases h
    · exact completesFrom_finish (by rfl) 0
    · exact completesFrom_finishTick (State.setTxBuf_irqStatus ..)
  | setRateMode =>
    simp only [exec, execSetRateMode] at h
    split at h
    · obtain rfl | ⟨x, -, h⟩ := withOperand_cases h
      · exact completesFrom_raiseError s .badArg
      · cases h
        exact completesFrom_finish (by rfl) 0
    · cases h
      exact completesFrom_raiseError s .badState
  | bind | unbind | setVol | setLoop | pause | unpause | setDepop | setDownsample | seekStart | fetch | skip | setRate =>
    exact completesFrom_slotCommand rfl h

/-- A turn of SEQ with a command latched completes, whether the word decodes or not (R220, R222). -/
theorem seqStep_completesFrom {s t : State} (hb : s.busy = true) (h : seqStep s = .next t) : CompletesFrom s t := by
  obtain ⟨hidle, -⟩ | ⟨i, -, h⟩ | ⟨e, rfl⟩ := seqStep_cases h
  · exact absurd (hb.symm.trans hidle) (by decide)
  · exact exec_completesFrom h
  · exact completesFrom_raiseError s e

/-- Settles O34: both a turn of SEQ and a command end in Complete(). -/
theorem everyCommandCompletesWithDone : Obligations.EveryCommandCompletesWithDone :=
  ⟨fun _ _ hb h => (seqStep_completesFrom hb h).idle_done_pending, fun _ _ _ h => (exec_completesFrom h).idle_done_pending⟩

end Sys2Proof.Machine
end

section
/-! Command errors (spec/60_exceptions.md R270, R275): a command either errs, which is `State.raiseError` on the state it
began in, or completes and leaves ERR and its cause alone, whatever else it writes. -/

namespace Sys2Proof.Machine

/-- From `s` to `t` the ERR register and the cause ERR, bit 2 of IRQ_STATUS, are as they were. -/
def ErrKept (s t : State) : Prop :=
  t.err = s.err ∧ t.irqStatus.getLsbD 2 = s.irqStatus.getLsbD 2

/-- Only the cause ERR has bit 2 of IRQ_STATUS (R45). -/
theorem Cause.mask_getLsbD_two {c : Cause} (hc : c ≠ .err) : c.mask.getLsbD 2 = false := by
  cases c with
  | err => exact absurd rfl hc
  | consumed | finished | done => rfl

theorem ErrKept.setCause {s u : State} {c : Cause} (h : ErrKept s u) (hc : c ≠ .err) : ErrKept s (u.setCause c) := by
  obtain ⟨herr, hcause⟩ := h
  refine ⟨herr, ?_⟩
  rw [State.setCause_irqStatus, BitVec.getLsbD_or, Cause.mask_getLsbD_two hc, Bool.or_false, hcause]

/-- A successful completion adds only the cause DONE (R222). -/
theorem ErrKept.finish {s u : State} (h : ErrKept s u) (r : Word) : ErrKept s (u.finish r) :=
  h.setCause (c := .done) (by decide)

/-- The end of an active TICK adds FINISHED or nothing before DONE (R230). -/
theorem ErrKept.finishTick {s u : State} (h : ErrKept s u) : ErrKept s (finishTick u) := by
  unfold Machine.finishTick
  split
  · exact (h.setCause (by decide)).finish 1
  · exact h.finish 0

theorem SlotWrite.errKept {s t : State} {k : Fin 5} (h : SlotWrite s t k) : ErrKept s t := by
  obtain ⟨c, r, rfl, -⟩ := h
  exact ErrKept.finish ⟨s.setSlot_err k c, congrArg (·.getLsbD 2) (s.setSlot_irqStatus k c)⟩ r

theorem remixed_errKept (s : State) (f : Filled) : ErrKept s (remixed s f) :=
  ⟨State.setTxBuf_err .., congrArg (·.getLsbD 2) (State.setTxBuf_irqStatus ..)⟩

/-- Every command that answers a next state errs on the state it began in, or keeps ERR and its cause. -/
theorem exec_raiseError_or_errKept {i : Instr} {s t : State} (h : exec i s = .next t) :
    (∃ e, t = s.raiseError e) ∨ ErrKept s t := by
  cases i with
  | nop | stop | clearAll | setMasterVol =>
    cases h
    exact .inr (ErrKept.finish ⟨rfl, rfl⟩ 0)
  | start =>
    obtain ⟨-, rfl⟩ | ⟨-, fa, fb, fc, -, rfl⟩ := execStart_cases h
    · exact .inl ⟨.badState, rfl⟩
    · exact .inr (ErrKept.finish ⟨rfl, rfl⟩ 0)
  | tick =>
    obtain ⟨-, rfl⟩ | ⟨-, -, f, -, rfl⟩ := execTick_cases h
    · exact .inr (ErrKept.finish ⟨rfl, rfl⟩ 0)
    · exact .inr (remixed_errKept s f).finishTick
  | setRateMode =>
    simp only [exec, execSetRateMode] at h
    split at h
    · obtain rfl | ⟨x, -, h⟩ := withOperand_cases h
      · exact .inl ⟨.badArg, rfl⟩
      · cases h
        exact .inr (ErrKept.finish ⟨rfl, rfl⟩ 0)
    · cases h
      exact .inl ⟨.badState, rfl⟩
  | bind | unbind | setVol | setLoop | pause | unpause | setDepop | setDownsample | seekStart | fetch | skip | setRate =>
    exact (exec_slotCommand rfl h).imp_right fun ⟨_, _, hwrite⟩ => hwrite.errKept

/-- A turn of SEQ with a command latched errs on the state it began in, or keeps ERR and its cause (R220). -/
theorem seqStep_raiseError_or_errKept {s t : State} (hb : s.busy = true) (h : seqStep s = .next t) :
    (∃ e, t = s.raiseError e) ∨ ErrKept s t := by
  obtain ⟨hidle, -⟩ | ⟨i, -, h⟩ | herr := seqStep_cases h
  · exact absurd (hb.symm.trans hidle) (by decide)
  · exact exec_raiseError_or_errKept h
  · exact .inl herr

/-- The codes of R271 are 1 to 7. -/
theorem CmdError.code_mem (e : CmdError) : 1 ≤ e.code.toNat ∧ e.code.toNat ≤ 7 := by
  cases e <;> decide

/-- Taking an error, in the terms of R275: the whole next state, with a code of R271. -/
theorem errKept_or_failed {s t : State} (h : (∃ e, t = s.raiseError e) ∨ ErrKept s t) :
    ErrKept s t ∨ ∃ e : BitVec 4, 1 ≤ e.toNat ∧ e.toNat ≤ 7 ∧ t = Spec.failed s e := by
  obtain ⟨e, rfl⟩ | hkept := h
  · exact .inr ⟨e.code, e.code_mem.1, e.code_mem.2, s.raiseError_eq_failed e⟩
  · exact .inl hkept

/-- Settles O35: an error is taken on the state the command began in, and no successful command writes ERR or its cause. -/
theorem commandErrorsArePrecise : Obligations.CommandErrorsArePrecise :=
  ⟨fun _ _ hb h => errKept_or_failed (seqStep_raiseError_or_errKept hb h),
    fun _ _ _ h => errKept_or_failed (exec_raiseError_or_errKept h)⟩

end Sys2Proof.Machine
end

section
/-! The encoding (spec/30_encoding.md R100 to R108, R113): a command word is its three fields, the opcode map and the opcodes
of the commands are inverse to each other, and every word decodes, is illegal, or is reserved. -/

namespace Sys2Proof.Machine

/-- The fields of every command's word (R100 to R103). -/
theorem encode_fields (i : Instr) : Laws.EncodingFields.Statement i := by
  cases i with
  | nop | start | stop | tick | clearAll | setMasterVol | setRateMode => exact ⟨rfl, rfl, rfl⟩
  | bind n | unbind n | setVol n | setLoop n | pause n | unpause n | setDepop n | setDownsample n | seekStart n | fetch n
  | skip n | setRate n => exact Laws.EncodingFields.slot_word n _

/-- The opcode map answers a command at its own opcode and slot (R105). -/
theorem commandOf_opcodeOf (i : Instr) : commandOf (opcodeOf i) (i.slotField.getD 0) = some i := by
  cases i <;> rfl

/-- The opcode map answers a command only at its own opcode, with the slot of the word if it takes one (R105). -/
theorem commandOf_eq_some {opc : BitVec 8} {n : BitVec 3} {i : Instr} (h : commandOf opc n = some i) :
    opcodeOf i = opc ∧ (i.slotField = none ∨ i.slotField = some n) := by
  unfold commandOf at h
  split at h
  case h_20 => cases h
  case h_1 hopc | h_2 hopc | h_3 hopc | h_4 hopc | h_5 hopc | h_6 hopc | h_7 hopc =>
    cases h
    exact ⟨BitVec.eq_of_toNat_eq hopc.symm, .inl rfl⟩
  all_goals
    next hopc =>
    cases h
    exact ⟨BitVec.eq_of_toNat_eq hopc.symm, .inr rfl⟩

/-- What decodes, said once: the opcode holds the command and the reserved fields are 0 (R102, R103, R106). -/
theorem decode_eq_ok_iff {cw : Word} {i : Instr} :
    decode cw = .ok i ↔
      commandOf (opcOf cw) (slotOf cw) = some i ∧ rsvOf cw = 0 ∧ (i.slotField = none → slotOf cw = 0) := by
  unfold decode
  cases hi : commandOf (opcOf cw) (slotOf cw) with
  | none => simp
  | some j =>
    simp only [Option.some.injEq]
    split
    · next hrsv => exact iff_of_false nofun fun h => hrsv h.2.1
    · next hrsv =>
      split
      · next hslot => exact iff_of_false nofun fun ⟨hji, _, h⟩ => hslot.2 (h (hji ▸ hslot.1))
      · next hslot =>
        constructor
        · rintro ⟨rfl⟩
          exact ⟨rfl, not_not.mp hrsv, fun hnone => not_not.mp fun hne => hslot ⟨hnone, hne⟩⟩
        · rintro ⟨rfl, -⟩
          rfl

/-- Settles O1: the word's fields are those of the command, and the opcode map gives it back. -/
theorem decodeOfEncodeIsTheCommand : Obligations.DecodeOfEncodeIsTheCommand := by
  intro i
  obtain ⟨hopc, hslot, hrsv⟩ := encode_fields i
  refine decode_eq_ok_iff.mpr ⟨?command, hrsv, fun hnone => ?slot⟩
  case command => rw [hopc, hslot, commandOf_opcodeOf]
  case slot => rw [hslot, hnone, Option.getD_none]

/-- A word is its three fields, RSV, SLOT and OPC from the most significant bit down (R100). -/
theorem word_eq_fields (cw : Word) : rsvOf cw ++ slotOf cw ++ opcOf cw = cw := by
  have hhigh : rsvOf cw ++ slotOf cw = cw.extractLsb' 8 24 := BitVec.extractLsb'_append_extractLsb'_eq_extractLsb' rfl
  have hword : cw.extractLsb' 8 24 ++ opcOf cw = cw.extractLsb' 0 32 :=
    BitVec.extractLsb'_append_extractLsb'_eq_extractLsb' rfl
  rw [hhigh, hword, BitVec.extractLsb'_eq_self]

/-- Settles O2: a word that decodes has the command's opcode, its slot or 0, and RSV = 0, which is the command's word. -/
theorem encodeOfDecodeIsTheWord : Obligations.EncodeOfDecodeIsTheWord := by
  intro cw i h
  obtain ⟨hcommand, hrsv, hengine⟩ := decode_eq_ok_iff.mp h
  obtain ⟨hopc, hfield⟩ := commandOf_eq_some hcommand
  have hslot : i.slotField.getD 0 = slotOf cw := by
    obtain hnone | hsome := hfield
    · rw [hnone, hengine hnone, Option.getD_none]
    · rw [hsome, Option.getD_some]
  calc encode i = 0#21 ++ i.slotField.getD 0 ++ opcodeOf i := rfl
    _ = rsvOf cw ++ slotOf cw ++ opcOf cw := by
      rw [hopc, hslot, hrsv]
      rfl
    _ = cw := word_eq_fields cw

/-- A word whose opcode holds a command and whose reserved fields are 0 decodes (R106). -/
theorem exists_decode_eq_ok {cw : Word} (hlegal : Spec.legalOpc (opcOf cw))
    (hzero : ¬ (rsvOf cw ≠ 0 ∨ ((opcOf cw).toNat ≤ 0x06 ∧ slotOf cw ≠ 0))) : ∃ i, decode cw = .ok i := by
  obtain ⟨hrsv, hslot⟩ := not_or.mp hzero
  obtain ⟨hillegal, -⟩ | ⟨-, i, hi, hengine⟩ := commandOf_cases (opcOf cw) (slotOf cw)
  · exact absurd hlegal hillegal
  · exact ⟨i, decode_eq_ok_iff.mpr ⟨hi, not_not.mp hrsv, fun hnone =>
      not_not.mp fun hne => hslot ⟨hengine.mp hnone, hne⟩⟩⟩

/-- Settles O3: the three answers of the decoder exclude each other, and each word meets the condition of one. -/
theorem decodeRefusesExactlyTheIllegalAndReservedWords :
    Obligations.DecodeRefusesExactlyTheIllegalAndReservedWords := by
  intro cw
  by_cases hlegal : Spec.legalOpc (opcOf cw)
  · by_cases hres : rsvOf cw ≠ 0 ∨ ((opcOf cw).toNat ≤ 0x06 ∧ slotOf cw ≠ 0)
    · rw [decode_eq_reserved hlegal hres]
      exact ⟨iff_of_false (by decide) (not_not.mpr hlegal), iff_of_true rfl ⟨hlegal, hres⟩⟩
    · obtain ⟨i, hi⟩ := exists_decode_eq_ok hlegal hres
      rw [hi]
      exact ⟨iff_of_false nofun (not_not.mpr hlegal), iff_of_false nofun fun h => hres h.2⟩
  · rw [decode_eq_illegalOpcode hlegal]
    exact ⟨iff_of_true rfl hlegal, iff_of_false (by decide) fun h => hlegal h.1⟩

/-- Settles O4: the decoder runs on the nine words. -/
theorem workedEncodingsDecode : Obligations.WorkedEncodingsDecode :=
  ⟨rfl, rfl, rfl, rfl, rfl, rfl, rfl, rfl, rfl⟩

end Sys2Proof.Machine
end

section
/-! The invariant of the state (spec/10_state.md sections 3 to 5): the reset state meets it, and the updates the steps are
built from, then every command and every agent, keep it. -/

namespace Sys2Proof.Machine

/-! ## Reset -/

@[simp] theorem State.slot_resetWith (b : Build) (d : Nat) (i : Fin 5) : (State.resetWith b d).slot i = Slot.unbound := by
  simp [State.slot, State.resetWith]

theorem drawnWords_length (d n : Nat) : (drawnWords d n).length = n := by
  simp [drawnWords]

theorem nFrames_pos (b : Build) : 0 < nFrames b := Nat.succ_pos _

theorem nFrames_le (b : Build) : nFrames b ≤ 1024 := b.lastFrame.isLt

/-- The state of R300 meets the invariant, whatever the build and the draw. -/
theorem resetWith_inv (b : Build) (d : Nat) : (State.resetWith b d).Inv where
  slots i := by
    rw [State.slot_resetWith]
    exact unbound_inv
  dma := ⟨nofun, iff_of_false nofun nofun, nofun, rfl, nofun, nFrames_pos b⟩
  buffers := ⟨drawnWords_length .., drawnWords_length .., drawnWords_length ..⟩
  mvol := Nat.le_refl _
  lastMix := Nat.zero_le _
  err := Nat.zero_le _
  mem := reset_memory_wf b d

/-- Settles O58: each row of the reset table R300 meets its part of the invariant. -/
theorem resetMeetsTheInvariant : Obligations.ResetMeetsTheInvariant := resetWith_inv

/-- The index of a frame does not wrap when it is advanced. -/
theorem idx_succ_toNat {s : State} (h : s.dma.idx.toNat < nFrames s.build) :
    (s.dma.idx + 1).toNat = s.dma.idx.toNat + 1 := by
  have hframes := nFrames_le s.build
  have hsum : (s.dma.idx + 1).toNat = (s.dma.idx.toNat + 1) % 2 ^ 16 := rfl
  omega

section Updates

variable {s : State} (h : s.Inv)
include h

/-! ## The updates the steps are built from -/

theorem State.Inv.finish (r : Word) : (s.finish r).Inv := { h with }

theorem State.Inv.answer (v : Word) : (s.answer v).Inv := { h with }

/-- Every code that is recorded is one of R271. -/
theorem State.Inv.recordError (e : CmdError) (cw : Word) : (s.recordError e cw).Inv := { h with err := e.code_mem.2 }

theorem State.Inv.raiseError (e : CmdError) : (s.raiseError e).Inv := { h with err := e.code_mem.2 }

theorem State.Inv.setSlot {i : Fin 5} {c : Slot} (hc : c.Inv) : (s.setSlot i c).Inv :=
  { h with
    slots := fun j => by
      by_cases hj : j = i
      · rw [hj, State.slot_setSlot_same]
        exact hc
      · rw [State.slot_setSlot_of_ne s i j c hj]
        exact h.slots j }

theorem State.Inv.setTxBuf (x : Buf) {ws : List Word} (hws : ws.length = nFrames s.build) : (s.setTxBuf x ws).Inv := by
  obtain ⟨ha, hb, hstage⟩ := h.buffers
  cases x with
  | a => exact { h with buffers := ⟨hws, hb, hstage⟩ }
  | b => exact { h with buffers := ⟨ha, hws, hstage⟩ }

/-- Reset keeps sample memory (R301), and with it the canonical form. -/
theorem State.Inv.resetBlock : s.resetBlock.Inv := { resetWith_inv s.build s.draws with mem := h.mem }

/-- The slots of the state, as the lemmas on the mixer take them. -/
theorem State.Inv.slotsInv : SlotsInv s.slots := h.slots

/-! ## The host -/

theorem writeReg_inv (r : Reg) (v : Word) : (writeReg s r v).Inv := by
  cases r with
  | arg0 | arg1 | irqEn | irqStatus => exact { h with }
  | cmd =>
    rw [writeReg, writeCmd]
    split
    · exact h.recordError .cmdOverrun v
    · exact { h with }
  | id | params | status | result | err | mvol | dmaIdx | depopParams | slot | bufA | bufB | stage | reserved => exact h

theorem pollAgain_inv (op : HostOp) (mask value v : Word) : (pollAgain op mask value v s).Inv := by
  unfold pollAgain
  split
  · exact h.answer v
  · exact { h with }

/-- A host access keeps the invariant if its register action does. -/
theorem access_inv {t : State} {addr : Word} {w : Width} {k : Reg → State} (hk : ∀ r, (k r).Inv)
    (ht : access s addr w k = .next t) : t.Inv := by
  obtain rfl | ⟨r, rfl⟩ := access_cases ht
  · exact h
  · exact hk r

theorem hostAction_inv {t : State} {op : HostOp} (ht : hostAction op s = .next t) : t.Inv := by
  cases op with
  | read addr w => exact access_inv h (fun r => h.answer (readReg s r)) ht
  | write addr w v => exact access_inv h (fun r => writeReg_inv h r v) ht
  | poll addr mask value => exact access_inv h (fun r => pollAgain_inv h _ mask value (readReg s r)) ht
  | store addr v =>
    simp only [hostAction] at ht
    split at ht
    · cases ht
    · cases ht
      exact { h with mem := putCell_wf s.mem addr.toNat v h.mem addr.isLt }

theorem hostStep_inv {t : State} (ht : hostStep s = .next t) : t.Inv := by
  unfold hostStep at ht
  split at ht
  · cases ht
    exact h
  · next op rest hop => exact hostAction_inv (s := { s with host := rest }) { h with } ht

/-! ## The DMA -/

/-- One frame further, or the end of the buffer: WAIT and EVT rise together (R253), and IDX stays below N_FRAMES. -/
theorem dmaStep_inv : (dmaStep s).Inv := by
  obtain ⟨hmode, hrun, hptr, hevt, hwait, hidx⟩ := h.dma
  unfold dmaStep
  split
  · next hen =>
    have hr : s.dma.run = true := (Bool.and_eq_true_iff.mp hen).1
    unfold transmit
    split
    · exact { h with dma := ⟨hmode, hrun, hptr, rfl, fun _ => hr, nFrames_pos s.build⟩ }
    · next hlast =>
      have hnext : (s.dma.idx + 1).toNat < nFrames s.build := by
        rw [idx_succ_toNat hidx]
        omega
      exact { h with dma := ⟨hmode, hrun, hptr, hevt, hwait, hnext⟩ }
  · exact h

/-! ## The commands -/

/-- The fills of START leave slots, a count and a STAGE that meet their parts of the invariant (R209, R224). -/
theorem primed_inv {fa fb fc : Filled} (hp : Primed s fa fb fc) :
    SlotsInv fc.slots ∧ fc.lastMix.toNat ≤ 5 ∧ fc.words.length = nFrames s.build := by
  obtain ⟨ha, hb, hc⟩ := hp
  obtain ⟨hsa, hla⟩ := mixLoop_inv h.slotsInv h.lastMix ha
  obtain ⟨hsb, hlb⟩ := mixLoop_inv hsa hla hb
  split at hc
  · obtain ⟨hsc, hlc⟩ := mixLoop_inv hsb hlb hc
    exact ⟨hsc, hlc, mixLoop_length hc⟩
  · subst hc
    exact ⟨hsb, hlb, h.buffers.2.2⟩

theorem execStart_inv {t : State} (ht : execStart s = .next t) : t.Inv := by
  obtain ⟨-, rfl⟩ | ⟨-, fa, fb, fc, hp, rfl⟩ := execStart_cases ht
  · exact h.raiseError .badState
  · obtain ⟨hslots, hlast, hstage⟩ := primed_inv h hp
    exact { h with
      slots := hslots
      dma := ⟨nofun, iff_of_true rfl rfl, fun _ => rfl, rfl, nofun, nFrames_pos s.build⟩
      buffers := ⟨mixLoop_length hp.a, mixLoop_length hp.b, hstage⟩
      lastMix := hlast }

/-- The swap moves the selector and the transmit pointer together (R228). -/
theorem swapBuffers_inv : (swapBuffers s).Inv := by
  obtain ⟨hmode, hrun, -, -, -, -⟩ := h.dma
  exact { h with dma := ⟨hmode, hrun, fun _ => rfl, rfl, nofun, nFrames_pos s.build⟩ }

/-- The swap, the copy and the re-mix of an active TICK (R228, R229). -/
theorem remixed_inv {f : Filled} (hf : mixLoop s.build s.mem s.mvol (nFrames s.build) s.slots s.lastMix = some f) :
    (remixed s f).Inv := by
  obtain ⟨hslots, hlast⟩ := mixLoop_inv h.slotsInv h.lastMix hf
  have hcopy : (copyStage (swapBuffers s)).Inv := (swapBuffers_inv h).setTxBuf _ h.buffers.2.2
  have hbuild : (copyStage (swapBuffers s)).build = s.build := State.setTxBuf_build ..
  have hlength : f.words.length = nFrames (copyStage (swapBuffers s)).build := by rw [hbuild, mixLoop_length hf]
  exact { hcopy with
    slots := hslots
    lastMix := hlast
    buffers := ⟨hcopy.buffers.1, hcopy.buffers.2.1, hlength⟩ }

/-- The end of an active TICK writes only RESULT, the causes and BUSY (R230). -/
theorem finishTick_inv : (finishTick s).Inv := by
  rw [finishTick_eq]
  exact { h with }

theorem execTick_inv {t : State} (ht : execTick s = .next t) : t.Inv := by
  obtain ⟨-, rfl⟩ | ⟨-, -, f, hf, rfl⟩ := execTick_cases ht
  · exact h.finish 0
  · exact finishTick_inv (remixed_inv h hf)

theorem execSetRateMode_inv {t : State} (ht : execSetRateMode s = .next t) : t.Inv := by
  unfold execSetRateMode at ht
  split at ht
  · obtain rfl | ⟨x, -, ht⟩ := withOperand_cases ht
    · exact h.raiseError .badArg
    · cases ht
      exact { h with }
  · cases ht
    exact h.raiseError .badState

/-- The volume operand is clamped to 1.0 (R232). -/
theorem execSetMasterVol_inv {t : State} (ht : execSetMasterVol s = .next t) : t.Inv := by
  cases ht
  refine { h with mvol := ?_ }
  have hvol := vol_toNat s.latch
  have hrange := clamp_mem (v := s.latch.a0.toInt) (lo := 0) (hi := 0x10000) (by decide)
  simp only [State.finish_mvol]
  omega

theorem slotCommand_inv {i : Instr} {n : BitVec 3} {t : State} (hn : i.slotField = some n) (ht : exec i s = .next t) :
    t.Inv := by
  obtain ⟨e, rfl⟩ | ⟨k, -, c, r, rfl, hc⟩ := exec_slotCommand hn ht
  · exact h.raiseError e
  · exact (h.setSlot (hc (h.slots k))).finish r

theorem exec_inv {i : Instr} {t : State} (ht : exec i s = .next t) : t.Inv := by
  cases i with
  | nop =>
    cases ht
    exact h.finish 0
  | start => exact execStart_inv h ht
  | stop =>
    cases ht
    exact { h with dma := ⟨nofun, iff_of_false nofun nofun, nofun, rfl, nofun, nFrames_pos s.build⟩ }
  | tick => exact execTick_inv h ht
  | clearAll =>
    cases ht
    exact { h with slots := (resetWith_inv s.build s.draws).slots }
  | setMasterVol => exact execSetMasterVol_inv h ht
  | setRateMode => exact execSetRateMode_inv h ht
  | bind | unbind | setVol | setLoop | pause | unpause | setDepop | setDownsample | seekStart | fetch | skip | setRate =>
    exact slotCommand_inv h rfl ht

/-! ## The turns -/

theorem seqStep_inv {t : State} (ht : seqStep s = .next t) : t.Inv := by
  obtain ⟨-, rfl⟩ | ⟨i, -, ht⟩ | ⟨e, rfl⟩ := seqStep_cases ht
  · exact h
  · exact exec_inv h ht
  · exact h.raiseError e

theorem takeTurn_inv {x : Turn} {t : State} (ht : takeTurn x s = .next t) : t.Inv := by
  cases x with
  | host => exact hostStep_inv h ht
  | seq => exact seqStep_inv h ht
  | dma =>
    cases ht
    exact dmaStep_inv h
  | reset =>
    cases ht
    exact h.resetBlock

end Updates

/-- Settles O59: a step is at most one turn of one agent, and neither the agenda nor the draws are in the invariant. -/
theorem everyStepKeepsTheInvariant : Obligations.EveryStepKeepsTheInvariant := by
  intro s t h ht
  obtain ⟨ts, d, rfl | ⟨x, ht⟩⟩ := step_cases ht
  · exact { h with }
  · exact takeTurn_inv (s := { s with agenda := ts, draws := d }) { h with } ht

end Sys2Proof.Machine
end

section
/-! The sample path on integers (spec/40_sample_path.md R130 to R139, R152): no step narrows a value, where a raw step reads
and what it leaves, and the runs of raw steps a skip takes. -/

namespace Sys2Proof.Machine

/-! ## The shaping of a sample -/

/-- The attenuator on integers (R136), for every volume. -/
theorem toInt_attenuate (x : Sample) (v : Vol) : (attenuate x v).toInt = Spec.attenuated x.toInt v := by
  unfold attenuate Spec.attenuated
  split
  · next hv => exact toInt_ofInt16_trunc0_mul x (by decide) hv.le
  · rfl

/-- Start de-pop on integers (R137): the average of two int16 values is an int16 value. -/
theorem toInt_startDepop (b : Build) (c : Slot) (x : Sample) :
    (startDepop b c x).toInt =
      if c.dps = true ∧ c.cnt.toNat < b.depopStartN.toNat then (x.toInt + c.last.toInt).tdiv 2 else x.toInt := by
  unfold startDepop
  split
  · obtain ⟨hxlo, hxhi⟩ := sample_range x
    obtain ⟨hllo, hlhi⟩ := sample_range c.last
    obtain ⟨hlo, hhi⟩ := trunc0_mem (a := x.toInt + c.last.toInt) (b := 2) (lo := -32768) (hi := 32767) (by decide)
      (by decide) (by decide) (by omega) (by omega)
    exact toInt_ofInt16 hlo hhi
  · rfl

/-- End de-pop on integers (R138): the ramp is a fraction below 1. -/
theorem toInt_endDepop (b : Build) (c : Slot) (x : Sample) :
    (endDepop b c x).toInt =
      if c.dpe = true ∧ c.rem < depopEndBytes b then (x.toInt * c.rem).tdiv (depopEndBytes b) else x.toInt := by
  unfold endDepop
  split
  · next hramp => exact toInt_ofInt16_trunc0_mul x (Nat.succ_pos _) hramp.2.le
  · rfl

/-- Settles O41: both de-pops stay within int16. -/
theorem depopArithmeticIsExact : Obligations.DepopArithmeticIsExact :=
  fun b c x => ⟨toInt_startDepop b c x, toInt_endDepop b c x⟩

/-! ## Where a raw step reads -/

theorem exhausted_iff (c : Slot) : c.exhausted = true ↔ c.len.toNat < c.pos.toNat + 2 := by
  unfold Slot.exhausted Slot.rem
  rw [decide_eq_true_iff]
  omega

theorem rewindIfDone_eq_ite (c : Slot) : c.rewindIfDone = if Spec.Rewinds c then { c with pos := 0, cnt := 0 } else c := by
  simp only [Slot.rewindIfDone, Bool.and_eq_true, exhausted_iff, Slot.rewind]

theorem rewindIfDone_pos_toNat (c : Slot) : c.rewindIfDone.pos.toNat = Spec.readPos c := by
  rw [rewindIfDone_eq_ite, Spec.readPos]
  split <;> rfl

theorem rewindIfDone_cnt_toNat (c : Slot) : c.rewindIfDone.cnt.toNat = Spec.readCnt c := by
  rw [rewindIfDone_eq_ite, Spec.readCnt]
  split <;> rfl

/-- A raw step finds no sample exactly where fewer than two bytes are left from the place it reads. -/
theorem rewindIfDone_exhausted_iff (c : Slot) :
    c.rewindIfDone.exhausted = true ↔ c.len.toNat < Spec.readPos c + 2 := by
  rw [exhausted_iff, rewindIfDone_pos_toNat, (rewindIfDone_frame c).len]

/-- A slot that has a sample left where it stands reads there. -/
theorem readPos_of_le {c : Slot} (h : c.pos.toNat + 2 ≤ c.len.toNat) : Spec.readPos c = c.pos.toNat :=
  if_neg fun hrewinds => absurd hrewinds.1 (by omega)

theorem readCnt_of_le {c : Slot} (h : c.pos.toNat + 2 ≤ c.len.toNat) : Spec.readCnt c = c.cnt.toNat :=
  if_neg fun hrewinds => absurd hrewinds.1 (by omega)

/-- The slot after the read, with POS past the sample. -/
theorem rewindIfDone_read_pos {c : Slot} (h : Spec.readPos c + 2 ≤ c.len.toNat) :
    (c.rewindIfDone.pos + 2).toNat = Spec.readPos c + 2 := by
  have hpos := rewindIfDone_pos_toNat c
  rw [show (2 : Word) = 2#32 from rfl, pos_add_two (by rw [hpos, (rewindIfDone_frame c).len]; exact h), hpos]

/-! ## What a raw step leaves -/

/-- Steps (3) to (5) on the slot as the read leaves it, on integers (R135). -/
theorem toInt_shapeSample_read {b : Build} {c : Slot} (h : Spec.readPos c + 2 ≤ c.len.toNat) (x : Sample) :
    (shapeSample b { c.rewindIfDone with pos := c.rewindIfDone.pos + 2 } x).toInt = Spec.shaped b c x.toInt := by
  have hframe := rewindIfDone_frame c
  have hdps : c.rewindIfDone.dps = c.dps := by rw [hframe]
  have hdpe : c.rewindIfDone.dpe = c.dpe := by rw [hframe]
  have hvol : c.rewindIfDone.vol = c.vol := by rw [hframe]
  have hlast : c.rewindIfDone.last = c.last := by
    rw [rewindIfDone_eq_ite]
    split <;> rfl
  simp only [shapeSample, toInt_endDepop, toInt_startDepop, toInt_attenuate, Slot.rem, hdps, hdpe, hvol, hlast, hframe.len,
    rewindIfDone_cnt_toNat, rewindIfDone_read_pos h, Spec.shaped, Spec.afterStartDepop]

/-- Steps (6) and (7) on the slot as the read leaves it (R135). -/
theorem record_rewindIfDone_read {c : Slot} (h : Spec.readPos c + 2 ≤ c.len.toNat) (y : Sample) :
    ({ c.rewindIfDone with pos := c.rewindIfDone.pos + 2 }.record y).rewindIfDone = Spec.afterRawStep c y := by
  have hframe := rewindIfDone_frame c
  have hpos : c.rewindIfDone.pos + 2 = BitVec.ofNat 32 (Spec.readPos c + 2) :=
    BitVec.eq_of_toNat_eq (by
      rw [rewindIfDone_read_pos h, BitVec.toNat_ofNat]
      omega)
  have hcnt : satU32 (c.rewindIfDone.cnt.toNat + 1) = BitVec.ofNat 32 (min (Spec.readCnt c + 1) (2 ^ 32 - 1)) := by
    rw [rewindIfDone_cnt_toNat]
    rfl
  have hloop : Spec.Rewinds ({ c.rewindIfDone with pos := c.rewindIfDone.pos + 2 }.record y) ↔
      c.loop = true ∧ c.len.toNat < Spec.readPos c + 4 := by
    simp only [Spec.Rewinds, Slot.record, rewindIfDone_read_pos h, hframe.len, hframe.loop]
    exact and_comm
  rw [rewindIfDone_eq_ite, Spec.afterRawStep]
  simp only [hloop]
  split
  · simp only [Slot.record]
    rw [hframe]
  · simp only [Slot.record, hpos, hcnt]
    rw [hframe]

/-- A raw step with a sample left (R135): the two bytes where it reads, shaped, and the slot it leaves. -/
theorem rawStep_of_bytes {b : Build} {m : List Host.Cell} {c : Slot} {b0 b1 : Byte}
    (h : Spec.readPos c + 2 ≤ c.len.toNat) (h0 : memRead b m (c.base.toNat + Spec.readPos c) = some b0)
    (h1 : memRead b m (c.base.toNat + Spec.readPos c + 1) = some b1) :
    ∃ y : Sample, y.toInt = Spec.shaped b c (b1 ++ b0).toInt ∧ rawStep b m c = some (some y, Spec.afterRawStep c y) := by
  have hleft : c.rewindIfDone.exhausted = false :=
    Bool.eq_false_iff.mpr fun he => absurd ((rewindIfDone_exhausted_iff c).mp he) (by omega)
  have hread : readSample b m c.rewindIfDone =
      some (b1 ++ b0, { c.rewindIfDone with pos := c.rewindIfDone.pos + 2 }) := by
    simp only [readSample, (rewindIfDone_frame c).base, rewindIfDone_pos_toNat, h0, h1]
  refine ⟨_, toInt_shapeSample_read h _, ?_⟩
  rw [rawStep_of_read hleft hread, record_rewindIfDone_read h]

/-- A raw step with no sample left at most rewinds (R135). -/
theorem rawStep_of_exhausted {b : Build} {m : List Host.Cell} {c : Slot} (h : c.len.toNat < Spec.readPos c + 2) :
    rawStep b m c = some (none, if Spec.Rewinds c then { c with pos := 0, cnt := 0 } else c) := by
  rw [rawStep, if_pos ((rewindIfDone_exhausted_iff c).mpr h), rewindIfDone_eq_ite]

/-- A raw step that gave a sample had one left, and left the slot of R135. -/
theorem rawStep_eq_some_sample {b : Build} {m : List Host.Cell} {c c1 : Slot} {y : Sample}
    (h : rawStep b m c = some (some y, c1)) : Spec.readPos c + 2 ≤ c.len.toNat ∧ c1 = Spec.afterRawStep c y := by
  obtain ⟨-, hnone, -⟩ | ⟨x, c0, he, hread, hy, rfl⟩ := rawStep_cases h
  · cases hnone
  · have hle : Spec.readPos c + 2 ≤ c.len.toNat :=
      Nat.not_lt.mp fun hlt => Bool.eq_false_iff.mp he ((rewindIfDone_exhausted_iff c).mpr hlt)
    rw [readSample_pos hread] at hy ⊢
    cases hy
    exact ⟨hle, record_rewindIfDone_read hle _⟩

/-- A raw step reads its slot only after step (1). -/
theorem rawStep_congr_rewindIfDone {b : Build} {m : List Host.Cell} {c d : Slot}
    (h : c.rewindIfDone = d.rewindIfDone) : rawStep b m c = rawStep b m d := by
  unfold rawStep
  rw [h]

/-! ## Looping slots -/

/-- A rewound slot is at its start, where one more rewind changes nothing. -/
theorem rewindIfDone_of_rewinds {c : Slot} (h : Spec.Rewinds c) :
    c.rewindIfDone = { c with pos := 0, cnt := 0 }.rewindIfDone := by
  rw [rewindIfDone_eq_ite, rewindIfDone_eq_ite, if_pos h]
  split <;> rfl

/-- Settles O42: a looping slot rewinds before it reads and after it has read its last sample. -/
theorem loopingSlotAlwaysGivesASample : Obligations.LoopingSlotAlwaysGivesASample := by
  intro b m c hloop
  refine ⟨fun hinv hreadable hlen => ?sample, fun hleft hlast x c1 h => ?loopPoint, fun hdone => ?start⟩
  case sample =>
    obtain ⟨r, c1, h⟩ := rawStep_of_readable m hreadable
    obtain ⟨x, rfl⟩ := rawStep_loop hloop hlen h
    have hloop1 : c1.loop = true := (rawStep_frame h).loop.trans hloop
    exact ⟨x, c1, h, by simp [Slot.ended, hloop1], rawStep_inv hinv h⟩
  case loopPoint =>
    obtain ⟨-, rfl⟩ := rawStep_eq_some_sample h
    exact if_pos ⟨hloop, by rw [readPos_of_le hleft]; exact hlast⟩
  case start => exact rawStep_congr_rewindIfDone (rewindIfDone_of_rewinds ⟨hdone, hloop⟩)

/-! ## Unlooped passes -/

/-- Without looping a raw step that gives a sample uses up two bytes. -/
theorem rem_of_rawStep {b : Build} {m : List Host.Cell} {c c1 : Slot} {y : Sample} (hloop : c.loop = false)
    (h : rawStep b m c = some (some y, c1)) : c.rem = c1.rem + 2 := by
  obtain ⟨hle, rfl⟩ := rawStep_eq_some_sample h
  have hpos : Spec.readPos c = c.pos.toNat := if_neg fun hrewinds => absurd hrewinds.2 (by simp [hloop])
  have hafter : (Spec.afterRawStep c y).rem = c.len.toNat - (c.pos.toNat + 2) := by
    have hlt := c.len.isLt
    rw [Spec.afterRawStep, if_neg (by simp [hloop]), hpos]
    simp only [Slot.rem, BitVec.toNat_ofNat]
    omega
  rw [hafter, Slot.rem]
  omega

theorem two_mul_skipN_le_rem {b : Build} {m : List Host.Cell} {n k : Nat} {c c1 : Slot} (hloop : c.loop = false)
    (h : skipN b m n c = some (k, c1)) : 2 * k ≤ c.rem := by
  induction n generalizing c k with
  | zero =>
    cases h
    exact Nat.zero_le _
  | succ n ih =>
    obtain ⟨-, rfl⟩ | ⟨x, c0, j, hraw, hskip, rfl⟩ := skipN_succ h
    · exact Nat.zero_le _
    · have hrem := rem_of_rawStep hloop hraw
      have hrest := ih ((rawStep_frame hraw).loop.trans hloop) hskip
      omega

/-- Settles O43: each sample uses up two of the LEN bytes left at the start of the pass. -/
theorem unloopedPassGivesAtMostHalfTheBytes : Obligations.UnloopedPassGivesAtMostHalfTheBytes := by
  intro b m c c1 n k hloop hpos h
  have hbytes := two_mul_skipN_le_rem hloop h
  have hrem : c.rem = c.len.toNat := by rw [Slot.rem, hpos]; rfl
  omega

/-! ## Skips as rows of raw steps -/

/-- A looping slot of at least one whole sample skips the whole count. -/
theorem skipN_loop {b : Build} {m : List Host.Cell} {n k : Nat} {c c1 : Slot} (hloop : c.loop = true)
    (hlen : 2 ≤ c.len.toNat) (h : skipN b m n c = some (k, c1)) : k = n := by
  induction n generalizing c k with
  | zero =>
    cases h
    rfl
  | succ n ih =>
    obtain ⟨hnone, -⟩ | ⟨x, c0, j, hraw, hskip, rfl⟩ := skipN_succ h
    · obtain ⟨x, hx⟩ := rawStep_loop hloop hlen hnone
      cases hx
    · have hframe := rawStep_frame hraw
      rw [ih (hframe.loop.trans hloop) (by rw [hframe.len]; exact hlen) hskip]

/-- A skip that gives nothing ended at its first raw step. -/
theorem skipN_succ_eq_zero_iff {b : Build} {m : List Host.Cell} {n : Nat} {c d : Slot} :
    skipN b m (n + 1) c = some (0, d) ↔ rawStep b m c = some (none, d) := by
  constructor
  · intro h
    obtain ⟨hraw, -⟩ | ⟨x, c1, j, -, -, hzero⟩ := skipN_succ h
    · exact hraw
    · cases hzero
  · intro h
    simp [skipN, h]

/-- A skip that gives samples is a raw step with a sample, and a skip from the slot it leaves. -/
theorem skipN_succ_eq_succ_iff {b : Build} {m : List Host.Cell} {n k : Nat} {c d : Slot} :
    skipN b m (n + 1) c = some (k + 1, d) ↔
      ∃ x c1, rawStep b m c = some (some x, c1) ∧ skipN b m n c1 = some (k, d) := by
  constructor
  · intro h
    obtain ⟨-, hzero⟩ | ⟨x, c1, j, hraw, hskip, hk⟩ := skipN_succ h
    · cases hzero
    · cases hk
      exact ⟨x, c1, hraw, hskip⟩
  · rintro ⟨x, c1, hraw, hskip⟩
    simp [skipN, hraw, hskip]

/-- `v` runs through the slots of a skip of `n` raw steps from `c`, of which `k` give a sample, to `d` (R139). -/
def SkipRun (b : Build) (m : List Host.Cell) (n k : Nat) (c d : Slot) (v : Nat → Slot) : Prop :=
  v 0 = c ∧ (∀ j < k, ∃ x, rawStep b m (v j) = some (some x, v (j + 1))) ∧
    if k = n then d = v k else rawStep b m (v k) = some (none, d)

/-- The slots of a run with one slot before them. -/
def consSlot (c : Slot) (v : Nat → Slot) : Nat → Slot
  | 0 => c
  | j + 1 => v j

/-- A run that gives a sample is that raw step, and a run from the slot it leaves. -/
theorem skipRun_succ_iff {b : Build} {m : List Host.Cell} {n k : Nat} {c d : Slot} {v : Nat → Slot} :
    SkipRun b m (n + 1) (k + 1) c d v ↔
      v 0 = c ∧ (∃ x, rawStep b m c = some (some x, v 1)) ∧ SkipRun b m n k (v 1) d fun j => v (j + 1) := by
  simp only [SkipRun, Nat.add_right_cancel_iff, true_and, Nat.zero_add]
  constructor
  · rintro ⟨h0, hrow, hend⟩
    exact ⟨h0, h0 ▸ hrow 0 (by omega), fun j hj => hrow (j + 1) (by omega), hend⟩
  · rintro ⟨h0, hfirst, hrow, hend⟩
    refine ⟨h0, fun j hj => ?_, hend⟩
    cases j with
    | zero => exact h0 ▸ hfirst
    | succ j => exact hrow j (by omega)

/-- A skip is a run of raw steps in a row (R139). -/
theorem skipN_iff_skipRun {b : Build} {m : List Host.Cell} {n k : Nat} {c d : Slot} :
    skipN b m n c = some (k, d) ↔ k ≤ n ∧ ∃ v, SkipRun b m n k c d v := by
  induction n generalizing k c with
  | zero =>
    constructor
    · intro h
      cases h
      exact ⟨Nat.le_refl 0, fun _ => d, rfl, nofun, rfl⟩
    · rintro ⟨hk, v, rfl, -, hend⟩
      obtain rfl : k = 0 := Nat.le_zero.mp hk
      rw [if_pos rfl] at hend
      rw [hend]
      rfl
  | succ n ih =>
    cases k with
    | zero =>
      rw [skipN_succ_eq_zero_iff]
      constructor
      · intro h
        exact ⟨Nat.zero_le _, fun _ => c, rfl, nofun, h⟩
      · rintro ⟨-, v, rfl, -, hend⟩
        exact hend
    | succ k =>
      rw [skipN_succ_eq_succ_iff]
      constructor
      · rintro ⟨x, c1, hraw, hskip⟩
        obtain ⟨hle, v, hrun⟩ := ih.mp hskip
        obtain rfl : v 0 = c1 := hrun.1
        exact ⟨by omega, consSlot c v, skipRun_succ_iff.mpr ⟨rfl, ⟨x, hraw⟩, hrun⟩⟩
      · rintro ⟨hle, v, hrun⟩
        obtain ⟨-, ⟨x, hraw⟩, hrest⟩ := skipRun_succ_iff.mp hrun
        exact ⟨x, v 1, hraw, ih.mpr ⟨by omega, _, hrest⟩⟩

end Sys2Proof.Machine
end

section
/-! Rate steps (spec/41_resampler.md R183 to R187): the ended slot, the first sample, skip mode and repeat mode. -/

namespace Sys2Proof.Machine

/-- ENDED by the fields it is derived from (R59). -/
theorem ended_iff (c : Slot) : c.ended = true ↔ c.bound = true ∧ c.len.toNat ≤ c.pos.toNat ∧ c.loop = false := by
  simp only [Slot.ended, Slot.rem, Bool.and_eq_true, decide_eq_true_eq, Bool.not_eq_true', Nat.sub_eq_zero_iff_le, and_assoc]

/-- A slot that has bytes left has not ended. -/
theorem ended_eq_false_of_lt {c : Slot} (h : c.pos.toNat < c.len.toNat) : c.ended = false :=
  Bool.eq_false_iff.mpr fun he => absurd ((ended_iff c).mp he).2.1 (Nat.not_le.mpr h)

theorem rateStep_of_ended {b : Build} {m : List Host.Cell} {c : Slot} (h : c.ended = true) :
    rateStep b m c = some (none, c) := if_pos h

theorem rateStep_of_first {b : Build} {m : List Host.Cell} {c : Slot} (he : c.ended = false) (hf : c.first = true) :
    rateStep b m c = rawStep b m { c with first := false } := by
  simp only [rateStep, he, hf, Bool.false_eq_true, if_false, if_true]

theorem rateStep_of_rate_pos {b : Build} {m : List Host.Cell} {c : Slot} (he : c.ended = false) (hf : c.first = false)
    (hrate : 0 < c.rate.toInt) : rateStep b m c = skipStep b m c := by
  simp only [rateStep, he, hf, Bool.false_eq_true, if_false, if_pos hrate]

theorem rateStep_of_rate_neg {b : Build} {m : List Host.Cell} {c : Slot} (he : c.ended = false) (hf : c.first = false)
    (hrate : c.rate.toInt < 0) : rateStep b m c = repeatStep b m c := by
  simp only [rateStep, he, hf, Bool.false_eq_true, if_false, if_neg (Int.not_lt.mpr hrate.le), if_pos hrate]

/-- Settles O44: the ended test comes before everything else of a rate step. -/
theorem endedSlotGivesNothing : Obligations.EndedSlotGivesNothing :=
  fun _ _ c hbound hpos hloop => rateStep_of_ended ((ended_iff c).mpr ⟨hbound, hpos, hloop⟩)

/-- Settles O45: the raw step that follows writes neither FIRST nor ACC nor RATE. -/
theorem firstRateStepIsPlain : Obligations.FirstRateStepIsPlain := by
  intro b m c he hf
  have hraw := rateStep_of_first (b := b) (m := m) he hf
  refine ⟨hraw, fun r c1 h => ?_⟩
  have hframe := rawStep_frame (hraw ▸ h)
  exact ⟨hframe.first, hframe.acc, hframe.rate⟩

/-- A positive s32 is its own pattern. -/
theorem toNat_toInt_of_pos {x : Word} (h : 0 < x.toInt) : x.toInt.toNat = x.toNat := by
  rw [BitVec.toInt_eq_toNat_cond] at h ⊢
  split at h
  · next hlt => rw [if_pos hlt, Int.toNat_natCast]
  · have := x.isLt
    omega

/-- Settles O46: `skipStart` puts the fraction into ACC, and the raw steps after it leave ACC alone. -/
theorem skipModeDropsTheWholeUnits : Obligations.SkipModeDropsTheWholeUnits := by
  intro b m c c1 r he hf hrate _ h
  rw [rateStep_of_rate_pos he hf hrate] at h
  obtain ⟨j, c0, hskip, hraw⟩ := skipStep_cases h
  have hframe : RawFrame (skipStart c) c1 := (skipN_frame hskip).trans (rawStep_frame hraw)
  have hacc : c1.acc = (skipStart c).acc := hframe.acc
  refine ⟨?fraction, hframe.rate, j, c0, ?skip, hraw⟩
  case fraction =>
    rw [hacc, skipStart, toNat_toInt_of_pos hrate, BitVec.toNat_ofNat]
    omega
  case skip =>
    rw [hacc, ← toNat_toInt_of_pos hrate]
    exact hskip

/-- The accumulator of a repeat step in terms of the magnitude of RATE (R180, R185). -/
theorem repeatAcc_eq {c : Slot} (h : c.rate.toInt < 0) :
    repeatAcc c = min (c.acc.toNat + c.rate.toInt.natAbs) (2 ^ 32 - 1) := by
  have hq : (-c.rate.toInt).toNat = c.rate.toInt.natAbs := by omega
  rw [repeatAcc, hq]
  rfl

/-- Settles O47: the saturated sum reaches 1.0 exactly where the sum does. -/
theorem repeatModeReemitsTheLastSample : Obligations.RepeatModeReemitsTheLastSample := by
  intro b m c he hf hrate
  have hacc := repeatAcc_eq hrate
  rw [rateStep_of_rate_neg he hf hrate, repeatStep]
  refine ⟨fun hone => ⟨_, if_pos (by omega), ?_⟩, fun hone => ⟨_, if_neg (by omega), ?_⟩⟩
  · rw [BitVec.toNat_ofNat, ← hacc]
    omega
  · rw [BitVec.toNat_ofNat]
    omega

end Sys2Proof.Machine
end

section
/-! The mixer (spec/42_mixer.md R201 to R210): which slots a mix leaves out, the down-sampler, and the frame on integers. -/

namespace Sys2Proof.Machine

/-! ## Slots a mix leaves out -/

/-- The slots R202 leaves out are those that are not eligible. -/
theorem skipped_iff (c : Slot) : Spec.Skipped c ↔ c.eligible = false := by
  rw [Spec.Skipped, Slot.eligible, Bool.and_eq_false_iff, Bool.and_eq_false_iff, Bool.not_eq_false', Bool.not_eq_false',
    ended_iff, or_assoc]
  cases c.bound <;> simp

/-- Settles O50: each clause is a law of the mixer on slots that are not eligible. -/
theorem ineligibleSlotsAreLeftAlone : Obligations.IneligibleSlotsAreLeftAlone := by
  refine ⟨fun b m c h => mixSlot_ineligible ((skipped_iff c).mp h), fun b m mvol slots =>
    ⟨fun h => ?silence, fun h => ?noSample, fun x hx k h => ?oneMix, fun n last f hf k h => ?manyMixes⟩⟩
  case silence => exact mix_silent m mvol fun k => (skipped_iff _).mp (h k)
  case noSample =>
    choose c hc using h
    refine ⟨_, mix_of_slots mvol (r := fun _ => none) hc, ?_, rfl⟩
    simp only [contribution, Int.add_zero, channel_zero]
    rfl
  case oneMix =>
    obtain ⟨r, hslots, -, -⟩ := mix_cases hx
    have hk := hslots k
    rw [mixSlot_ineligible ((skipped_iff _).mp h)] at hk
    exact (congrArg Prod.snd (Option.some.inj hk)).symm
  case manyMixes => exact mixLoop_ineligible ((skipped_iff _).mp h) hf

/-! ## The down-sampler -/

/-- With DS = 1 and four bytes left one rate step is discarded (R203). -/
theorem mixSlot_of_discard {b : Build} {m : List Host.Cell} {c c1 : Slot} {r : Option Sample} (he : c.eligible = true)
    (hd : c.ds = true ∧ 4 ≤ c.rem) (h : rateStep b m c = some (r, c1)) : mixSlot b m c = rateStep b m c1 := by
  simp only [mixSlot, if_pos he, discardStep, if_pos hd, h, Option.map_some]

/-- Otherwise none is (R203). -/
theorem mixSlot_of_not_discard {b : Build} {m : List Host.Cell} {c : Slot} (he : c.eligible = true)
    (hd : ¬ (c.ds = true ∧ 4 ≤ c.rem)) : mixSlot b m c = rateStep b m c := by
  simp only [mixSlot, if_pos he, discardStep, if_neg hd]

/-- Settles O51: an ineligible slot is exactly a skipped one, and REM counts the bytes left. -/
theorem downSamplerDiscardsOneStep : Obligations.DownSamplerDiscardsOneStep := by
  intro b m c c1 r h
  have he : c.eligible = true := eq_true_of_ne_false fun hne => h ((skipped_iff c).mpr hne)
  refine ⟨fun hds hleft hrate => mixSlot_of_discard he ⟨hds, ?_⟩ hrate, fun hfew => mixSlot_of_not_discard he ?_⟩
  · unfold Slot.rem
    omega
  · rintro ⟨hds, hrem⟩
    unfold Slot.rem at hrem
    obtain hds' | hlt := hfew
    · exact absurd (hds.symm.trans hds') (by decide)
    · omega

/-! ## The frame -/

/-- A channel on integers (R207, R208). -/
theorem toInt_channel (b : Build) (mvol : Vol) (sum : Int) : (channel b mvol sum).toInt = Spec.channelOf b mvol sum := by
  rw [channel, toInt_attenuate, toInt_clip, clamp_eq _ _ _ (clipLo_le_clipHi b)]
  rfl

theorem packFrame_left (l r : Sample) : (packFrame l r).extractLsb' 0 16 = l := BitVec.extractLsb'_append_eq_right

theorem packFrame_right (l r : Sample) : (packFrame l r).extractLsb' 16 16 = r := BitVec.extractLsb'_append_eq_left

theorem contribution_eq_given (r : Option Sample) : contribution r = Spec.given r := by cases r <;> rfl

/-- The count of the slots that gave a sample (R205). -/
theorem countP_isSome_eq_contributed (r0 r1 r2 r3 r4 : Option Sample) :
    [r0, r1, r2, r3, r4].countP (·.isSome) =
      contributed r0 + contributed r1 + contributed r2 + contributed r3 + contributed r4 := by
  simp only [List.countP_cons, List.countP_nil, contributed, Nat.zero_add]
  omega

/-- One slot alone at full volume: its sample passes the clip and the volume (R210 law 2). -/
theorem channel_of_sample {b : Build} {x : Sample} (h : b.clipSym = true → x.toInt ≠ -32768) :
    channel b 0x10000#17 x.toInt = x := by
  obtain ⟨hlo, hhi⟩ := sample_range x
  have hclip : clamp x.toInt (clipLo b) clipHi = x.toInt := by
    rw [clamp_eq _ _ _ (clipLo_le_clipHi b), clipLo, clipHi]
    split
    · next hsym =>
      have := h hsym
      omega
    · omega
  have hfull : ¬ (0x10000#17).toNat < 0x10000 := by decide
  apply BitVec.eq_of_toInt_eq
  rw [channel, attenuate, if_neg hfull, toInt_clip, hclip]

/-- The five slots by their numbers. -/
theorem getElem_five (u : Fin 5 → Slot) {i : Nat} (hi : i < 5) : #v[u 0, u 1, u 2, u 3, u 4][i] = u ⟨i, hi⟩ := by
  interval_cases i <;> rfl

/-- The slots after a mix in which slot `k` alone took part. -/
theorem five_update (slots : Vector Slot 5) (k : Fin 5) (c : Slot) (u : Fin 5 → Slot)
    (hu : u = Function.update (fun j => slots[j.val]) k c) :
    #v[u 0, u 1, u 2, u 3, u 4] = slots.set k.val c k.isLt := by
  apply Vector.ext
  intro i hi
  rw [getElem_five, Vector.getElem_set, hu, Function.update_apply]
  simp only [Fin.ext_iff, eq_comm (a := i)]

/-- A frame is made of the five slots' parts (R201, R204 to R208). -/
theorem mix_frame {b : Build} {m : List Host.Cell} (mvol : Vol) {slots : Vector Slot 5} {r : Fin 5 → Option Sample}
    {c : Fin 5 → Slot} (h : ∀ k : Fin 5, mixSlot b m slots[k.val] = some (r k, c k)) :
    ∃ x : Mixed, mix b m mvol slots = some x ∧ (∀ k : Fin 5, x.slots[k.val] = c k) ∧
      (x.word.extractLsb' 0 16).toInt =
        Spec.channelOf b mvol (Spec.given (r 0) + Spec.given (r 2) + Spec.given (r 4)) ∧
      (x.word.extractLsb' 16 16).toInt = Spec.channelOf b mvol (Spec.given (r 1) + Spec.given (r 3)) ∧
      x.count.toNat = [r 0, r 1, r 2, r 3, r 4].countP (·.isSome) := by
  refine ⟨_, mix_of_slots mvol h, fun k => getElem_five c k.isLt, ?left, ?right, ?count⟩
  case left => simp only [packFrame_left, toInt_channel, contribution_eq_given]
  case right => simp only [packFrame_right, toInt_channel, contribution_eq_given]
  case count =>
    have h0 := contributed_le (r 0)
    have h1 := contributed_le (r 1)
    have h2 := contributed_le (r 2)
    have h3 := contributed_le (r 3)
    have h4 := contributed_le (r 4)
    rw [countP_isSome_eq_contributed, BitVec.toNat_ofNat]
    omega

/-- One contributing slot at full volume is heard on its channel alone (R210 law 2). -/
theorem mix_single {b : Build} {m : List Host.Cell} {slots : Vector Slot 5} {k : Fin 5} {x : Sample} {c : Slot}
    (hothers : ∀ j : Fin 5, j ≠ k → Spec.Skipped slots[j.val]) (hk : mixSlot b m slots[k.val] = some (some x, c))
    (hsym : b.clipSym = true → x.toInt ≠ -32768) :
    mix b m 0x10000 slots = some
      { word := if k.val % 2 = 0 then 0#16 ++ x else x ++ 0#16
        slots := slots.set k.val c k.isLt
        count := 1 } := by
  have hparts : ∀ j : Fin 5, mixSlot b m slots[j.val] = some
      (Function.update (fun _ => none) k (some x) j, Function.update (fun j => slots[j.val]) k c j) := by
    intro j
    by_cases hj : j = k
    · rw [hj, hk, Function.update_self, Function.update_self]
    · rw [Function.update_of_ne hj, Function.update_of_ne hj, mixSlot_ineligible ((skipped_iff _).mp (hothers j hj))]
  have hx := channel_of_sample hsym
  rw [mix_of_slots 0x10000 hparts, five_update slots k c _ rfl]
  fin_cases k <;> simp [contribution, contributed, hx, channel_zero, packFrame]

/-- Settles O52: the frame of any five parts, then that of one part beside four empty ones. -/
theorem singleSlotGoesToItsChannel : Obligations.SingleSlotGoesToItsChannel :=
  ⟨fun _ _ mvol _ _ _ h => mix_frame mvol h, fun _ _ _ _ _ _ hothers hk hsym => mix_single hothers hk hsym⟩

end Sys2Proof.Machine
end

section
/-! The engine commands (spec/43_engine.md R223 to R233): each as the whole next state. `State.finish` is the completion
`Spec.completed`, and `State.raiseError` the failure `Spec.failed`. -/

namespace Sys2Proof.Machine

/-! ## Commands that write engine registers -/

/-- Settles O17: both commands are their completion, unfolded. -/
theorem nopAndStopComplete : Obligations.NopAndStopComplete := fun _ => ⟨rfl, rfl⟩

theorem slot_of_slots_replicate {s : State} {c : Slot} (h : s.slots = Vector.replicate 5 c) (i : Fin 5) : s.slot i = c := by
  simp only [State.slot, h, Vector.getElem_replicate]

/-- Settles O18: the vector of slots is replaced whole. -/
theorem clearAllEmptiesEverySlot : Obligations.ClearAllEmptiesEverySlot :=
  fun _ => ⟨_, rfl, slot_of_slots_replicate rfl, rfl⟩

/-- Settles O22: each of the three commands completes, and 1.0 passes the clamp. -/
theorem stopClearAllAndFullVolumeRestoreReset : Obligations.StopClearAllAndFullVolumeRestoreReset :=
  fun _ _ _ => ⟨_, _, _, rfl, rfl, rfl, rfl, rfl, rfl, rfl, rfl, rfl⟩

/-- SET_RATE_MODE in Idle is its operand check (R233). -/
theorem exec_setRateMode_of_idle {s : State} (h : s.mode = .idle) :
    exec .setRateMode s = withOperand s.latch.hz s fun r => .next ({ s with rateMode := r }.finish 0) :=
  if_pos h

/-- The hz operand takes no other value (R104). -/
theorem hz_eq_none {l : Latch} (h1 : l.a0 ≠ 22050#32) (h2 : l.a0 ≠ 44100#32) : l.hz = none := by
  have hlow : l.a0.toNat ≠ 22050 := fun h => h1 (BitVec.eq_of_toNat_eq h)
  have hhigh : l.a0.toNat ≠ 44100 := fun h => h2 (BitVec.eq_of_toNat_eq h)
  rw [Latch.hz, if_neg hlow, if_neg hhigh]

/-- Settles O19: the state check, then the three values the operand check can find. -/
theorem setRateModeChecksStateThenOperand : Obligations.SetRateModeChecksStateThenOperand := by
  intro s
  refine ⟨fun hm h => ?low, fun hm h => ?high, fun hm h1 h2 => ?badArg, fun hm => ?badState⟩
  case low =>
    rw [exec_setRateMode_of_idle hm, Latch.hz, h]
    rfl
  case high =>
    rw [exec_setRateMode_of_idle hm, Latch.hz, h]
    rfl
  case badArg =>
    rw [exec_setRateMode_of_idle hm, hz_eq_none h1 h2, withOperand, State.raiseError_eq_failed]
    rfl
  case badState =>
    rw [exec, execSetRateMode, if_neg hm, State.raiseError_eq_failed]
    rfl

/-! ## START and TICK -/

/-- A buffer fill of the model is the row of mixes R209 speaks of. -/
theorem fills_of_mixLoop {b : Build} {m : List Host.Cell} {mvol : Vol} {slots : Vector Slot 5} {last : BitVec 3} {f : Filled}
    (h : mixLoop b m mvol (nFrames b) slots last = some f) : Spec.Fills b m mvol slots f :=
  mixLoop_row h

/-- The readability of the state's slots, as the lemmas on the mixer take it. -/
theorem State.SlotsReadable.vector {s : State} (h : s.SlotsReadable) : Machine.SlotsReadable s.build s.slots :=
  fun k hb => (h k hb).2

/-- Settles O20: readable regions let all three fills answer, and START is the swap-in of what they leave. -/
theorem startPrimesTheBuffersAndStreams : Obligations.StartPrimesTheBuffersAndStreams := by
  intro s
  refine ⟨fun hm hr => ?idle, fun hm => ?badState⟩
  case idle =>
    obtain ⟨fa, fb, fc, hp⟩ := primed_of_readable hr.vector
    refine ⟨fa, fb, fc, fills_of_mixLoop hp.a, fills_of_mixLoop hp.b, ?_, execStart_of hm hp⟩
    have hc := hp.c
    split at hc
    · next hprime =>
      rw [if_pos hprime]
      exact fills_of_mixLoop hc
    · next hprime =>
      rw [if_neg hprime]
      exact hc
  case badState =>
    rw [exec, execStart, if_neg hm, State.raiseError_eq_failed]
    rfl

theorem State.setTxBuf_eq (s : State) (t : Buf) (ws : List Word) :
    s.setTxBuf t ws =
      { s with bufA := if t = .a then ws else s.bufA, bufB := if t = .b then ws else s.bufB } := by
  cases t <;> rfl

/-- The swap, the copy and the re-mix of an active TICK as one update: STAGE goes to the buffer SEL named before (R228,
R229). -/
theorem remixed_eq (s : State) (f : Filled) :
    remixed s f =
      { s with
        sel := s.sel.other
        dma := { run := s.dma.run, wait := false, ptr := s.sel.other, idx := 0 }
        evt := false
        bufA := if s.sel = .a then s.stage else s.bufA
        bufB := if s.sel = .b then s.stage else s.bufB
        stage := f.words
        slots := f.slots
        lastMix := f.lastMix } := by
  have hfreed : (swapBuffers s).sel.other = s.sel := Buf.other_other s.sel
  rw [remixed, copyStage, hfreed, State.setTxBuf_eq]
  rfl

/-- An active TICK whose fill answers, as the whole next state (R227 to R230). -/
theorem exec_tick_of_active {s : State} {f : Filled} (hm : s.mode = .streaming) (he : s.evt = true)
    (hf : mixLoop s.build s.mem s.mvol (nFrames s.build) s.slots s.lastMix = some f) :
    exec .tick s = .next
      { s with
        sel := s.sel.other
        dma := { run := s.dma.run, wait := false, ptr := s.sel.other, idx := 0 }
        evt := false
        bufA := if s.sel = .a then s.stage else s.bufA
        bufB := if s.sel = .b then s.stage else s.bufB
        stage := f.words
        slots := f.slots
        lastMix := f.lastMix
        result := if f.lastMix = 0 then 1 else 0
        irqStatus := s.irqStatus ||| (if f.lastMix = 0 then 0b1010#4 else 0b1000#4)
        busy := false } := by
  rw [exec, execTick_of hm he hf, finishTick_eq, remixed_eq]

/-- Settles O21: the active test, and the one fill of an active TICK. -/
theorem tickSwapsCopiesAndRemixes : Obligations.TickSwapsCopiesAndRemixes := by
  intro s
  refine ⟨fun hno => ?inactive, fun hm he hr => ?active⟩
  case inactive =>
    refine if_neg ?_
    rintro ⟨hm, he⟩
    exact hno.elim (· hm) fun hne => absurd (he.symm.trans hne) (by decide)
  case active =>
    obtain ⟨f, hf⟩ := mixLoop_of_readable s.mem s.mvol (nFrames s.build) s.lastMix hr.vector
    exact ⟨f, fills_of_mixLoop hf, exec_tick_of_active hm he hf⟩

end Sys2Proof.Machine
end

section
/-! The slot commands (spec/40_sample_path.md R140 to R150, spec/41_resampler.md R181): the slot checks, the operands, and
each command as the whole next state. -/

namespace Sys2Proof.Machine

/-! ## The slot checks -/

/-- Every slot command makes the slot check first (R272). -/
theorem exec_eq_onSlot {i : Instr} {n : BitVec 3} (hn : i.slotField = some n) (s : State) :
    ∃ k, exec i s = onSlot n s k := by
  cases i with
  | nop | start | stop | tick | clearAll | setMasterVol | setRateMode => cases hn
  | bind | unbind | setVol | setLoop | pause | unpause | setDepop | setDownsample | seekStart | fetch | skip | setRate =>
    cases hn
    simp only [exec, execBind, execUnbind, execSetVol, execSetLoop, execPause, execUnpause, execSetDepop,
      execSetDownsample, execSeekStart, execFetch, execSkip, execSetRate, onBoundSlot]
    exact ⟨_, rfl⟩

/-- Every slot command but BIND and UNBIND makes the bound check next (R272). -/
theorem exec_eq_onBoundSlot {i : Instr} {n : BitVec 3} (hn : i.slotField = some n) (hbind : i ≠ .bind n)
    (hunbind : i ≠ .unbind n) (s : State) : ∃ k, exec i s = onBoundSlot n s k := by
  cases i with
  | nop | start | stop | tick | clearAll | setMasterVol | setRateMode => cases hn
  | bind =>
    cases hn
    exact absurd rfl hbind
  | unbind =>
    cases hn
    exact absurd rfl hunbind
  | setVol | setLoop | pause | unpause | setDepop | setDownsample | seekStart | fetch | skip | setRate =>
    cases hn
    simp only [exec, execSetVol, execSetLoop, execPause, execUnpause, execSetDepop, execSetDownsample, execSeekStart,
      execFetch, execSkip, execSetRate]
    exact ⟨_, rfl⟩

/-- Settles O32: the slot check comes before everything else. -/
theorem slotsFiveToSevenAreBadSlot : Obligations.SlotsFiveToSevenAreBadSlot := by
  intro s i n hn hbad
  obtain ⟨k, hk⟩ := exec_eq_onSlot hn s
  rw [hk, onSlot_bad hbad, State.raiseError_eq_failed]
  rfl

/-- Settles O33: the bound check comes before everything but the slot check. -/
theorem commandsOnAnUnboundSlotAreUnbound : Obligations.CommandsOnAnUnboundSlotAreUnbound := by
  intro s i k hn hbind hunbind hk
  obtain ⟨g, hg⟩ := exec_eq_onBoundSlot hn hbind hunbind s
  rw [hg, onBoundSlot_unbound hk, State.raiseError_eq_failed]
  rfl

/-! ## Operands -/

theorem dataRegion_of_le {l : Latch} (h : l.a0.toNat + l.a1.toNat ≤ 2 ^ 32) : l.dataRegion = some (l.a0, l.a1) := if_pos h

theorem dataRegion_of_lt {l : Latch} (h : 2 ^ 32 < l.a0.toNat + l.a1.toNat) : l.dataRegion = none :=
  if_neg (Nat.not_le.mpr h)

/-- The bits of a word from bit `n` up are zero exactly when it is below 2^n. -/
theorem extractLsb'_eq_zero_iff {n k : Nat} (x : BitVec (n + k)) : x.extractLsb' n k = 0 ↔ x.toNat < 2 ^ n := by
  have hhigh : x.toNat / 2 ^ n < 2 ^ k := Nat.div_lt_of_lt_mul (Nat.pow_add 2 n k ▸ x.isLt)
  rw [← BitVec.toNat_inj, BitVec.extractLsb'_toNat, Nat.shiftRight_eq_div_pow, Nat.mod_eq_of_lt hhigh]
  exact Nat.div_eq_zero_iff_lt (Nat.two_pow_pos n)

/-- Bit 0 of a flag operand, which is 0 or 1 (R104). -/
theorem flag_of_lt {l : Latch} (h : l.a0.toNat < 2) : l.flag = some (decide (l.a0 = 1)) := by
  rw [Latch.flag, if_pos ((extractLsb'_eq_zero_iff (n := 1) (k := 31) l.a0).mpr h)]
  have hbit : l.a0.getLsbD 0 = decide (l.a0 = 1) := by
    have hone : l.a0 = 1 ↔ l.a0.toNat = 1 := BitVec.toNat_inj.symm
    rw [BitVec.getLsbD, Nat.testBit_zero, decide_eq_decide, hone]
    omega
  rw [hbit]

theorem flag_of_le {l : Latch} (h : 2 ≤ l.a0.toNat) : l.flag = none :=
  if_neg fun hzero => absurd ((extractLsb'_eq_zero_iff (n := 1) (k := 31) l.a0).mp hzero) (Nat.not_lt.mpr h)

/-- The two enables of a depop operand (R104). -/
theorem depop_of_lt {l : Latch} (h : l.a0.toNat < 4) :
    l.depop = some (decide (l.a0.toNat % 2 = 1), decide (2 ≤ l.a0.toNat)) := by
  rw [Latch.depop, if_pos ((extractLsb'_eq_zero_iff (n := 2) (k := 30) l.a0).mpr h)]
  have hstart : l.a0.getLsbD 0 = decide (l.a0.toNat % 2 = 1) := Nat.testBit_zero _
  have hend : l.a0.getLsbD 1 = decide (2 ≤ l.a0.toNat) := by
    rw [BitVec.getLsbD, Nat.testBit_eq_decide_div_mod_eq, decide_eq_decide]
    omega
  rw [hstart, hend]

theorem depop_of_le {l : Latch} (h : 4 ≤ l.a0.toNat) : l.depop = none :=
  if_neg fun hzero => absurd ((extractLsb'_eq_zero_iff (n := 2) (k := 30) l.a0).mp hzero) (Nat.not_lt.mpr h)

/-- An operand outside its legal set is the error BAD_ARG (R272), in the words of R275. -/
theorem withOperand_none {α : Type} {o : Option α} (h : o = none) (s : State) (k : α → Result) :
    withOperand o s k = .next (Spec.failed s 5) := by
  rw [h, withOperand, State.raiseError_eq_failed]
  rfl

/-! ## The commands -/

/-- Settles O23: the slot check passes for SLOT 0 to 4, and the two operands decide between the fresh stream and BAD_ARG. -/
theorem bindAndUnbindReplaceTheSlot : Obligations.BindAndUnbindReplaceTheSlot := by
  intro s i
  refine ⟨fun h => ?bind, fun h => ?badArg, ?unbind⟩
  case bind =>
    rw [exec, execBind, onSlot_slotNo, dataRegion_of_le h]
    rfl
  case badArg => rw [exec, execBind, onSlot_slotNo, withOperand_none (dataRegion_of_lt h)]
  case unbind =>
    rw [exec, execUnbind, onSlot_slotNo]
    rfl

/-- Settles O24: both commands take the clamped operand of the latch. -/
theorem volumeCommandsClamp : Obligations.VolumeCommandsClamp := by
  intro s
  refine ⟨s.latch.vol, ?_, rfl, fun i hb => ?_⟩
  · rw [vol_toNat, clamp_eq _ _ _ (by decide)]
  · rw [exec, execSetVol, onBoundSlot_slotNo hb]
    rfl

/-- Settles O25: the two flag commands read the same operand form. -/
theorem flagCommandsWriteTheirFlag : Obligations.FlagCommandsWriteTheirFlag := by
  intro s i hb
  refine ⟨fun h => ⟨?loop, ?ds⟩, fun h => ⟨?loopBadArg, ?dsBadArg⟩⟩
  case loop =>
    rw [exec, execSetLoop, onBoundSlot_slotNo hb, flag_of_lt h]
    rfl
  case ds =>
    rw [exec, execSetDownsample, onBoundSlot_slotNo hb, flag_of_lt h]
    rfl
  case loopBadArg => rw [exec, execSetLoop, onBoundSlot_slotNo hb, withOperand_none (flag_of_le h)]
  case dsBadArg => rw [exec, execSetDownsample, onBoundSlot_slotNo hb, withOperand_none (flag_of_le h)]

/-- Settles O26: the two enables are the operand's bits, and none is left above them. -/
theorem setDepopWritesBothEnables : Obligations.SetDepopWritesBothEnables := by
  intro s i hb
  refine ⟨fun h => ?enables, fun h => ?badArg⟩
  case enables =>
    rw [exec, execSetDepop, onBoundSlot_slotNo hb, depop_of_lt h]
    rfl
  case badArg => rw [exec, execSetDepop, onBoundSlot_slotNo hb, withOperand_none (depop_of_le h)]

/-- Settles O27: the slot checks pass, and each command is its completion. -/
theorem pauseUnpauseAndSeekComplete : Obligations.PauseUnpauseAndSeekComplete := by
  intro s i hb
  refine ⟨?pause, ?unpause, ?seek⟩
  case pause =>
    rw [exec, execPause, onBoundSlot_slotNo hb]
    rfl
  case unpause =>
    rw [exec, execUnpause, onBoundSlot_slotNo hb]
    rfl
  case seek =>
    rw [exec, execSeekStart, onBoundSlot_slotNo hb]
    rfl

/-- Settles O28: its operand has no legal set to fall outside of. -/
theorem setRateTakesEveryRate : Obligations.SetRateTakesEveryRate := fun _ _ hb => exec_setRate_of_bound hb

/-! ## FETCH and SKIP -/

/-- FETCH is the rate step of its slot, if that answers (R149). -/
theorem exec_fetch_of_rateStep {s : State} {i : Fin 5} {r : Option Sample} {c : Slot} (hb : (s.slot i).bound = true)
    (h : rateStep s.build s.mem (s.slot i) = some (r, c)) :
    exec (.fetch (slotNo i)) s = .next (Spec.completed (Spec.withSlot s i c) (fetchWord r)) := by
  rw [exec, execFetch, onBoundSlot_slotNo hb, h]
  rfl

/-- SKIP is the skip of its slot, if that answers (R150). -/
theorem exec_skip_of_skipN {s : State} {i : Fin 5} {k : Nat} {c : Slot} (hb : (s.slot i).bound = true)
    (h : skipN s.build s.mem s.latch.a0.toNat (s.slot i) = some (k, c)) :
    exec (.skip (slotNo i)) s = .next (Spec.completed (Spec.withSlot s i c) (BitVec.ofNat 32 k)) := by
  rw [exec, execSkip, onBoundSlot_slotNo hb, Latch.count, h]
  rfl

/-- A fetched sample: bit 16 set above its 16 bits (R149). -/
theorem fetchWord_some (x : Sample) : fetchWord (some x) = 0x10000#32 ||| x.setWidth 32 := by
  apply BitVec.eq_of_toNat_eq
  have hx : x.toNat < 2 ^ 32 := x.isLt.trans (by decide)
  rw [fetchWord, BitVec.toNat_append, BitVec.toNat_or, BitVec.toNat_setWidth, Nat.mod_eq_of_lt hx]
  rfl

/-- Settles O29: a readable region lets the rate step answer. -/
theorem fetchReturnsOneRateStep : Obligations.FetchReturnsOneRateStep := by
  intro s i hb _ hr
  obtain ⟨r, c, h⟩ := rateStep_of_readable s.mem hr
  refine ⟨r, c, h, ?_⟩
  rw [exec_fetch_of_rateStep hb h]
  cases r with
  | none => rfl
  | some x => rw [fetchWord_some]

/-- On a slot that is plain as R152 law 3 asks, nothing shapes the sample. -/
theorem shaped_plain {b : Build} {c : Slot} (hvol : c.vol = 0x10000) (hdps : c.dps = false) (hdpe : c.dpe = false)
    (x : Int) : Spec.shaped b c x = x := by
  simp [Spec.shaped, Spec.afterStartDepop, Spec.attenuated, hvol, hdps, hdpe]

theorem ofNat_toNat_add (x : Word) (n : Nat) : BitVec.ofNat 32 (x.toNat + n) = x + BitVec.ofNat 32 n := by
  rw [BitVec.ofNat_add, BitVec.ofNat_toNat, BitVec.setWidth_eq]

/-- CNT counted with saturation (R57). -/
theorem ofNat_saturating_succ (x : Word) :
    BitVec.ofNat 32 (min (x.toNat + 1) (2 ^ 32 - 1)) = if x = 0xFFFFFFFF#32 then 0xFFFFFFFF#32 else x + 1 := by
  split
  · next h =>
    rw [h]
    rfl
  · next h =>
    have hne : x.toNat ≠ 2 ^ 32 - 1 := fun hx => h (BitVec.eq_of_toNat_eq hx)
    have hlt := x.isLt
    rw [min_eq_left (by omega), ofNat_toNat_add]
    rfl

/-- The slot after a raw step away from the loop point that rewound nothing (R135). -/
theorem afterRawStep_of_le {c : Slot} (hleft : c.pos.toNat + 2 ≤ c.len.toNat)
    (hloop : c.loop = true → c.pos.toNat + 4 ≤ c.len.toNat) (y : Sample) :
    Spec.afterRawStep c y =
      { c with
        pos := c.pos + 2
        last := y
        cnt := if c.cnt = 0xFFFFFFFF#32 then 0xFFFFFFFF#32 else c.cnt + 1 } := by
  have hpos : BitVec.ofNat 32 (c.pos.toNat + 2) = c.pos + 2 := ofNat_toNat_add c.pos 2
  rw [Spec.afterRawStep, readPos_of_le hleft, readCnt_of_le hleft, ofNat_saturating_succ, hpos, if_neg]
  rintro ⟨hl, hlast⟩
  exact absurd (hloop hl) (by omega)

/-- The rate step of a plain stream away from its loop point gives the stored sample (R152 law 3). -/
theorem rateStep_of_plain {b : Build} {m : List Host.Cell} {c : Slot} {b0 b1 : Byte} (hrate : c.rate = 0)
    (hvol : c.vol = 0x10000) (hdps : c.dps = false) (hdpe : c.dpe = false) (hleft : c.pos.toNat + 2 ≤ c.len.toNat)
    (hloop : c.loop = true → c.pos.toNat + 4 ≤ c.len.toNat)
    (h0 : memRead b m (c.base.toNat + c.pos.toNat) = some b0)
    (h1 : memRead b m (c.base.toNat + c.pos.toNat + 1) = some b1) :
    rateStep b m c = some (some (b1 ++ b0),
      { c with
        first := false
        pos := c.pos + 2
        last := b1 ++ b0
        cnt := if c.cnt = 0xFFFFFFFF#32 then 0xFFFFFFFF#32 else c.cnt + 1 }) := by
  have hread : Spec.readPos { c with first := false } = c.pos.toNat := readPos_of_le hleft
  obtain ⟨y, hy, hraw⟩ := rawStep_of_bytes (b := b) (m := m) (c := { c with first := false })
    (by rw [hread]; exact hleft) (by rw [hread]; exact h0) (by rw [hread]; exact h1)
  obtain rfl : y = b1 ++ b0 := BitVec.eq_of_toInt_eq (hy.trans (shaped_plain hvol hdps hdpe _))
  rw [rateStep_of_rate_zero b m hrate (ended_eq_false_of_lt (by omega)), hraw,
    afterRawStep_of_le (c := { c with first := false }) hleft hloop]

/-- Settles O30: the raw step in its two cases, and FETCH of the plain rate step. -/
theorem fetchOfPlainStreamReturnsTheStoredSample : Obligations.FetchOfPlainStreamReturnsTheStoredSample := by
  refine ⟨fun b m c b0 b1 hleft h0 h1 => rawStep_of_bytes hleft h0 h1, fun b m c hnone => rawStep_of_exhausted hnone, ?_⟩
  intro s i b0 b1 hb hrate hvol hdps hdpe hleft hloop h0 h1
  rw [exec_fetch_of_rateStep hb (rateStep_of_plain hrate hvol hdps hdpe hleft hloop h0 h1), fetchWord_some]

/-- Settles O31: a readable region lets every raw step answer, and a skip is a row of them. -/
theorem skipReturnsTheSamplesSkipped : Obligations.SkipReturnsTheSamplesSkipped := by
  refine ⟨fun s i hb _ hr => ?_, fun b m n k c d => skipN_iff_skipRun⟩
  obtain ⟨k, c, h⟩ := skipN_of_readable s.mem s.latch.a0.toNat hr
  exact ⟨k, c, h, exec_skip_of_skipN hb h, skipN_le h, skipN_frame h, fun hloop hlen => skipN_loop hloop hlen h⟩

end Sys2Proof.Machine
end

section
/-! What no command writes (spec/20_memory.md R81, spec/43_engine.md R234, R235, spec/10_state.md R63): all a command can do,
said once, and the frames that follow from it. -/

namespace Sys2Proof.Machine

/-- The registers a command other than START, STOP and an active TICK may write before it completes with `r`: the slots, the
master volume and the rate mode. -/
def State.withEngine (s : State) (slots : Vector Slot 5) (mvol : Vol) (rateMode : RateMode) (r : Word) : State :=
  { s with slots := slots, mvol := mvol, rateMode := rateMode }.finish r

/-- All a command can do (R223 to R233, R140 to R150): an error, START, STOP, an active TICK, or slots, volume and rate mode
written. -/
theorem exec_cases {i : Instr} {s t : State} (h : exec i s = .next t) :
    (i ≠ .stop ∧ (i = .start → s.mode ≠ .idle) ∧ ∃ e, t = s.raiseError e) ∨
    (i = .start ∧ s.mode = .idle ∧ ∃ fa fb fc, t = (startDma (primedState s fa fb fc)).finish 0) ∨
    (i = .stop ∧
      t = { s with dma := { s.dma with run := false, wait := false, idx := 0 }, evt := false, mode := .idle }.finish 0) ∨
    (i = .tick ∧ ∃ f, t = finishTick (remixed s f)) ∨
    (i ≠ .start ∧ i ≠ .stop ∧ ∃ slots mvol rateMode r, t = s.withEngine slots mvol rateMode r) := by
  cases i with
  | nop | clearAll | setMasterVol =>
    cases h
    exact .inr (.inr (.inr (.inr ⟨nofun, nofun, _, _, _, 0, rfl⟩)))
  | start =>
    obtain ⟨hm, rfl⟩ | ⟨hm, fa, fb, fc, -, rfl⟩ := execStart_cases h
    · exact .inl ⟨nofun, fun _ => hm, .badState, rfl⟩
    · exact .inr (.inl ⟨rfl, hm, fa, fb, fc, rfl⟩)
  | stop =>
    cases h
    exact .inr (.inr (.inl ⟨rfl, rfl⟩))
  | tick =>
    obtain ⟨-, rfl⟩ | ⟨-, -, f, -, rfl⟩ := execTick_cases h
    · exact .inr (.inr (.inr (.inr ⟨nofun, nofun, _, _, _, 0, rfl⟩)))
    · exact .inr (.inr (.inr (.inl ⟨rfl, f, rfl⟩)))
  | setRateMode =>
    simp only [exec, execSetRateMode] at h
    split at h
    · obtain rfl | ⟨x, -, h⟩ := withOperand_cases h
      · exact .inl ⟨nofun, nofun, .badArg, rfl⟩
      · cases h
        exact .inr (.inr (.inr (.inr ⟨nofun, nofun, _, _, _, 0, rfl⟩)))
    · cases h
      exact .inl ⟨nofun, nofun, .badState, rfl⟩
  | bind | unbind | setVol | setLoop | pause | unpause | setDepop | setDownsample | seekStart | fetch | skip | setRate =>
    obtain ⟨e, rfl⟩ | ⟨k, -, c, r, rfl, -⟩ := exec_slotCommand rfl h
    · exact .inl ⟨nofun, nofun, e, rfl⟩
    · exact .inr (.inr (.inr (.inr ⟨nofun, nofun, _, _, _, r, rfl⟩)))

/-- From `s` to `t` sample memory, the parameters, the operand registers, the latch, IRQ_EN, TX and the surroundings are as
they were. -/
structure InputsKept (s t : State) : Prop where
  mem : t.mem = s.mem
  build : t.build = s.build
  arg0 : t.arg0 = s.arg0
  arg1 : t.arg1 = s.arg1
  latch : t.latch = s.latch
  irqEn : t.irqEn = s.irqEn
  tx : t.tx = s.tx
  host : t.host = s.host
  reads : t.reads = s.reads
  agenda : t.agenda = s.agenda
  draws : t.draws = s.draws

theorem exec_inputsKept {i : Instr} {s t : State} (h : exec i s = .next t) : InputsKept s t := by
  obtain ⟨-, -, e, rfl⟩ | ⟨-, -, fa, fb, fc, rfl⟩ | ⟨-, rfl⟩ | ⟨-, f, rfl⟩ | ⟨-, -, slots, mvol, rateMode, r, rfl⟩ :=
    exec_cases h
  case inr.inr.inr.inl =>
    rw [finishTick_eq, remixed_eq]
    exact ⟨rfl, rfl, rfl, rfl, rfl, rfl, rfl, rfl, rfl, rfl, rfl⟩
  all_goals exact ⟨rfl, rfl, rfl, rfl, rfl, rfl, rfl, rfl, rfl, rfl, rfl⟩

/-- Settles O36: memory is kept as a whole, so every byte of it is. -/
theorem commandsLeaveMemoryAndInputsAlone : Obligations.CommandsLeaveMemoryAndInputsAlone := by
  intro i s t h
  obtain ⟨hmem, hbuild, harg0, harg1, hlatch, hirqEn, htx, hhost, hreads, hagenda, hdraws⟩ := exec_inputsKept h
  exact ⟨fun x => by rw [hmem, hbuild], hmem, hbuild, harg0, harg1, hlatch, hirqEn, htx, hhost, hreads, hagenda, hdraws⟩

/-- Settles O37: an error writes no slot, and a success the one its word names. -/
theorem slotCommandsWriteOnlyTheirSlot : Obligations.SlotCommandsWriteOnlyTheirSlot := by
  intro i n s t hn h
  obtain ⟨e, rfl⟩ | ⟨k, rfl, c, r, rfl, -⟩ := exec_slotCommand hn h
  · exact ⟨fun _ _ => rfl, rfl, rfl, rfl, rfl, rfl, rfl, rfl, rfl, rfl, rfl⟩
  · refine ⟨fun j hj => ?_, rfl, rfl, rfl, rfl, rfl, rfl, rfl, rfl, rfl, rfl⟩
    rw [slotNo_toNat] at hj
    exact s.slot_setSlot_of_ne k j c fun hjk => hj (congrArg Fin.val hjk)

/-- An active TICK keeps the buffer its swap selects (R228, R229). -/
theorem finishTick_remixed_txBuf (s : State) (f : Filled) :
    (finishTick (remixed s f)).txBuf (finishTick (remixed s f)).sel =
      s.txBuf (finishTick (remixed s f)).sel := by
  rw [finishTick_eq, remixed_eq]
  cases hsel : s.sel <;> simp [State.txBuf, Buf.other]

/-- Settles O38: in Streaming START is an error, and TICK writes the buffer SEL named before its swap. -/
theorem hardwareOwnedBufferIsNeverWritten : Obligations.HardwareOwnedBufferIsNeverWritten := by
  intro i s t hm h
  obtain ⟨-, -, e, rfl⟩ | ⟨-, hidle, -⟩ | ⟨-, rfl⟩ | ⟨-, f, rfl⟩ | ⟨-, -, slots, mvol, rateMode, r, rfl⟩ := exec_cases h
  · exact State.txBuf_congr rfl rfl _
  · exact absurd (hm.symm.trans hidle) (by decide)
  · exact State.txBuf_congr rfl rfl _
  · exact finishTick_remixed_txBuf s f
  · exact State.txBuf_congr rfl rfl _

theorem finishTick_remixed_mode (s : State) (f : Filled) : (finishTick (remixed s f)).mode = s.mode := by
  rw [finishTick_eq, remixed_eq]

/-- Settles O39: START leaves Streaming or, outside Idle, the state it found; STOP leaves Idle. -/
theorem onlyStartAndStopChangeTheEngineState : Obligations.OnlyStartAndStopChangeTheEngineState := by
  intro i s t hm h
  obtain ⟨hstop, hstart, e, rfl⟩ | ⟨rfl, -, fa, fb, fc, rfl⟩ | ⟨rfl, rfl⟩ | ⟨rfl, f, rfl⟩ |
    ⟨hstart, hstop, slots, mvol, rateMode, r, rfl⟩ := exec_cases h
  · refine ⟨hm, fun _ _ => rfl, fun hi => absurd hi hstop, fun hi => ?_⟩
    cases hmode : s.mode with
    | idle => exact absurd hmode (hstart hi)
    | priming => exact absurd hmode hm
    | streaming => exact hmode
  · exact ⟨nofun, fun hi => absurd rfl hi, nofun, fun _ => rfl⟩
  · exact ⟨nofun, fun _ hi => absurd rfl hi, fun _ => rfl, nofun⟩
  · have hmode := finishTick_remixed_mode s f
    exact ⟨hmode ▸ hm, fun _ _ => hmode, nofun, nofun⟩
  · exact ⟨hm, fun _ _ => rfl, fun hi => absurd hi hstop, fun hi => absurd hi hstart⟩

end Sys2Proof.Machine
end

section
/-! The register map (spec/10_state.md R33, R51, R62): which register stands at which word offset, and which offsets take a
write or hold nothing. -/

namespace Sys2Proof.Machine

theorem regAt_of_lt {k : Nat} (h : k < 0x40) : regAt k = engineRegAt k := if_pos h

/-- The block of slot `i`. -/
theorem regAt_slotBlock (i : Fin 5) {k : Nat} (hk : k < 16) : regAt (0x40 + 16 * i.val + k) = slotBlockReg i k := by
  have hi := i.isLt
  have hdiv : (0x40 + 16 * i.val + k - 0x40) / 16 = i.val := by omega
  have hmod : (0x40 + 16 * i.val + k - 0x40) % 16 = k := by omega
  have hlt : (0x40 + 16 * i.val + k - 0x40) / 16 < 5 := by omega
  have hblock : (⟨(0x40 + 16 * i.val + k - 0x40) / 16, hlt⟩ : Fin 5) = i := Fin.ext hdiv
  rw [regAt, if_neg (by omega), dif_pos hlt, hblock, hmod]

theorem regAt_of_gap {k : Nat} (hlo : 0x90 ≤ k) (hhi : k < 0x400) : regAt k = .reserved := by
  rw [regAt, if_neg (by omega), dif_neg (by omega), if_pos hhi]

theorem regAt_bufA {k : Nat} (hk : k < 0x400) : regAt (0x400 + k) = .bufA k := by
  rw [regAt, if_neg (by omega), dif_neg (by omega), if_neg (by omega), if_pos (by omega), Nat.add_sub_cancel_left]

theorem regAt_bufB {k : Nat} (hk : k < 0x400) : regAt (0x800 + k) = .bufB k := by
  rw [regAt, if_neg (by omega), dif_neg (by omega), if_neg (by omega), if_neg (by omega), if_pos (by omega),
    Nat.add_sub_cancel_left]

theorem regAt_stage {k : Nat} (hk : k < 0x400) : regAt (0xC00 + k) = .stage k := by
  rw [regAt, if_neg (by omega), dif_neg (by omega), if_neg (by omega), if_neg (by omega), if_neg (by omega),
    if_pos (by omega), Nat.add_sub_cancel_left]

/-- The registers of a slot block stand at their own places in it (R51). -/
theorem regAt_index_slot (i : Fin 5) (r : SlotReg) : regAt (Reg.slot i r).index = .slot i r := by
  have hindex : r.index < 16 := by cases r <;> decide
  rw [Reg.index, regAt_slotBlock i hindex]
  cases r <;> rfl

/-- Settles O5: the map by its ranges; a slot register's offset is the one `Reg.index` gives it. -/
theorem registerMapIsOneToOne : Obligations.RegisterMapIsOneToOne := by
  refine ⟨?engine, fun i => ?slots, fun k hk => ⟨regAt_bufA hk, regAt_bufB hk, regAt_stage hk⟩, ?engineIndex,
    regAt_index_slot, fun k hk => ⟨regAt_bufA hk, regAt_bufB hk, regAt_stage hk⟩⟩
  case engine => decide
  case slots =>
    revert i
    decide
  case engineIndex => decide

/-! ## Writable registers and empty offsets -/

/-- The registers that take a host write (R34). -/
def writableRegs : List Reg := [.arg0, .arg1, .cmd, .irqEn, .irqStatus]

theorem writeReg_of_not_writable {r : Reg} (h : r ∉ writableRegs) (s : State) (v : Word) : writeReg s r v = s := by
  cases r with
  | arg0 | arg1 | cmd | irqEn | irqStatus => exact absurd (by decide) h
  | id | params | status | result | err | mvol | dmaIdx | depopParams | slot | bufA | bufB | stage | reserved => rfl

theorem engineRegAt_not_writable {k : Nat} (h : k ∉ [3, 4, 5, 7, 8]) : engineRegAt k ∉ writableRegs := by
  unfold engineRegAt
  split
  case h_4 | h_5 | h_6 | h_8 | h_9 => exact absurd (by decide) h
  all_goals decide

theorem slotBlockReg_not_writable (i : Fin 5) (k : Nat) : slotBlockReg i k ∉ writableRegs := by
  unfold slotBlockReg
  split <;> simp [writableRegs]

/-- The writable registers stand at the offsets 3, 4, 5, 7 and 8 alone. -/
theorem regAt_not_writable {k : Nat} (h : k ∉ [3, 4, 5, 7, 8]) : regAt k ∉ writableRegs := by
  unfold regAt
  split
  · exact engineRegAt_not_writable h
  · split
    · exact slotBlockReg_not_writable _ _
    · split_ifs <;> simp [writableRegs]

theorem engineRegAt_of_ge {k : Nat} (h : 13 ≤ k) : engineRegAt k = .reserved := by
  unfold engineRegAt
  split
  case h_14 => rfl
  all_goals omega

theorem slotBlockReg_of_ge (i : Fin 5) {k : Nat} (h : 10 ≤ k) : slotBlockReg i k = .reserved := by
  have hnone : slotRegAt k = none := by
    unfold slotRegAt
    split
    case h_11 => rfl
    all_goals omega
  rw [slotBlockReg, hnone]

/-- The places of a slot block after SREM (R51). -/
theorem regAt_of_block_end {k : Nat} (hlo : 0x40 ≤ k) (hhi : k < 0x90) (h : 10 ≤ (k - 0x40) % 16) :
    regAt k = .reserved := by
  have hslot : (k - 0x40) / 16 < 5 := by omega
  have hk : 0x40 + 16 * (⟨(k - 0x40) / 16, hslot⟩ : Fin 5).val + (k - 0x40) % 16 = k := by
    simp only
    omega
  rw [← hk, regAt_slotBlock _ (by omega), slotBlockReg_of_ge _ h]

/-- A buffer word at or beyond N_FRAMES reads 0 (R62). -/
theorem readReg_window_eq_zero {s : State} {k : Nat} (hlo : 0x400 ≤ k) (hhi : k < 0x1000)
    (hframes : nFrames s.build ≤ (k - 0x400) % 0x400) : readReg s (regAt k) = 0 := by
  obtain ⟨j, hj, hle, hk⟩ : ∃ j < 0x400, nFrames s.build ≤ j ∧ (k = 0x400 + j ∨ k = 0x800 + j ∨ k = 0xC00 + j) :=
    ⟨(k - 0x400) % 0x400, Nat.mod_lt _ (by decide), hframes, by omega⟩
  obtain rfl | rfl | rfl := hk
  · rw [regAt_bufA hj]
    exact if_neg (Nat.not_lt.mpr hle)
  · rw [regAt_bufB hj]
    exact if_neg (Nat.not_lt.mpr hle)
  · rw [regAt_stage hj]
    exact if_neg (Nat.not_lt.mpr hle)

/-- The word offsets that read 0: CMD, the reserved ones and the buffer words from N_FRAMES on (R41, R62). -/
theorem readReg_regAt_eq_zero {s : State} {k : Nat} (hk : k < 0x1000)
    (h : k = 5 ∨ (13 ≤ k ∧ k < 0x40) ∨ (0x90 ≤ k ∧ k < 0x400) ∨ (0x40 ≤ k ∧ k < 0x90 ∧ 10 ≤ (k - 0x40) % 16) ∨
      (0x400 ≤ k ∧ nFrames s.build ≤ (k - 0x400) % 0x400)) : readReg s (regAt k) = 0 := by
  obtain rfl | ⟨hlo, hhi⟩ | ⟨hlo, hhi⟩ | ⟨hlo, hhi, hblock⟩ | ⟨hlo, hframes⟩ := h
  · rfl
  · rw [regAt_of_lt hhi, engineRegAt_of_ge hlo]
    rfl
  · rw [regAt_of_gap hlo hhi]
    rfl
  · rw [regAt_of_block_end hlo hhi hblock]
    rfl
  · exact readReg_window_eq_zero hlo hk hframes

end Sys2Proof.Machine
end

section
/-! The turns of the agents (spec/00_scope.md R9, spec/43_engine.md R220, R221, spec/44_dma.md R251 to R257): the turn at the
head of the agenda, the turn an empty agenda leaves, and what the host and the DMA do with theirs. -/

namespace Sys2Proof.Machine

/-! ## Whose turn it is -/

theorem dmaEnabled_eq_false {s : State} (h : s.dma.run = false ∨ s.dma.wait = true) : dmaEnabled s = false := by
  obtain h | h := h <;> simp [dmaEnabled, h]

/-- With an empty agenda and neither the host nor the DMA able to step, the turn is SEQ's or nobody's. -/
theorem step_of_seq_alone {s : State} (ha : s.agenda = []) (hh : s.host = [])
    (hd : s.dma.run = false ∨ s.dma.wait = true) : step s = if seqEnabled s then seqStep s else .next s := by
  have hturns : enabledTurns s = if seqEnabled s then [.seq] else [] := by
    simp [enabledTurns, hh, dmaEnabled_eq_false hd]
  unfold step pickTurn
  rw [ha, hturns]
  cases seqEnabled s <;> rfl

theorem seqEnabled_of_ne_fault {s : State} (hb : s.busy = true) (h : ∀ f, seqStep s ≠ .fault f) : seqEnabled s = true := by
  unfold seqEnabled
  rw [hb]
  split
  · rfl
  · rfl
  · next f hf => exact absurd hf (h f)

theorem seqEnabled_of_idle {s : State} (hb : s.busy = false) : seqEnabled s = false := by
  rw [seqEnabled, hb, Bool.false_and]

theorem seqEnabled_of_fault {s : State} {f : Fault} (h : seqStep s = .fault f) : seqEnabled s = false := by
  rw [seqEnabled, h, Bool.and_false]

theorem seqStep_of_idle {s : State} (hb : s.busy = false) : seqStep s = .next s := by
  rw [seqStep, hb, if_neg Bool.false_ne_true]

/-- Settles O6: an agenda turn is its agent's step, and SEQ alone has the turn an empty agenda leaves. -/
theorem seqStepRunsTheDecodedCommand : Obligations.SeqStepRunsTheDecodedCommand := by
  have halone : ∀ s : State, s.agenda = [] → s.host = [] → s.busy = true → (s.dma.run = false ∨ s.dma.wait = true) →
      (∀ f, seqStep s ≠ .fault f) → step s = seqStep s := by
    intro s ha hh hb hd hf
    rw [step_of_seq_alone ha hh hd, if_pos (seqEnabled_of_ne_fault hb hf)]
  refine ⟨fun s ts ha => step_agenda ha, halone, fun s i hb hi => ⟨fun ts ha => ?agenda, fun ha hh hd hf => ?empty⟩⟩
  case agenda =>
    rw [step_agenda ha]
    exact seqStep_decoded (s := { s with agenda := ts }) hb hi
  case empty =>
    have hexec := seqStep_decoded hb hi
    rw [halone s ha hh hb hd (hexec ▸ hf), hexec]

/-- Settles O14: an agent without a step leaves its turn's state alone, and no agent has the turn where none can step. -/
theorem turnWithoutStepChangesNothing : Obligations.TurnWithoutStepChangesNothing := by
  intro s ts
  refine ⟨fun ha hb => ?seq, fun ha hd => ?dma, fun ha hh => ?host, fun ha hh hb hd => ?idle,
    fun i f ha hh hb hi hf hd => ?stuck⟩
  case seq =>
    rw [step_agenda ha]
    exact seqStep_of_idle (s := { s with agenda := ts }) hb
  case dma =>
    rw [step_agenda ha, takeTurn, dmaStep, if_neg]
    exact Bool.eq_false_iff.mp (dmaEnabled_eq_false (s := { s with agenda := ts }) hd)
  case host =>
    rw [step_agenda ha, takeTurn, hostStep, hh]
  case idle =>
    rw [step_of_seq_alone ha hh hd, seqEnabled_of_idle hb]
    rfl
  case stuck =>
    rw [step_of_seq_alone ha hh hd, seqEnabled_of_fault ((seqStep_decoded hb hi).trans hf)]
    rfl

/-- Settles O57: the reset turn is the reset of the block, which keeps its surroundings. -/
theorem resetTurnGivesTheResetState : Obligations.ResetTurnGivesTheResetState := fun _ _ ha => step_agenda ha

/-! ## The host -/

/-- The host's turn is its next action. -/
theorem step_host {s : State} {ts : List Turn} {op : HostOp} {rest : List HostOp} (ha : s.agenda = .host :: ts)
    (hh : s.host = op :: rest) : step s = hostAction op { s with agenda := ts, host := rest } := by
  rw [step_agenda ha, takeTurn, hostStep, hh]

/-- A write of word `k` of the window, at the host's turn, is the write of the register there. -/
theorem step_write {s : State} {ts : List Turn} {rest : List HostOp} {k : Nat} {v : Word} (ha : s.agenda = .host :: ts)
    (hk : k < 0x1000) (hh : s.host = .write (Spec.regAddr s k) .word v :: rest) :
    step s = .next (writeReg { s with agenda := ts, host := rest } (regAt k) v) := by
  rw [step_host ha hh, hostAction]
  exact access_word (s := { s with agenda := ts, host := rest }) hk _

/-- The agenda and the host's program are in no register. -/
theorem readReg_surroundings (s : State) (ts : List Turn) (rest : List HostOp) (r : Reg) :
    readReg { s with agenda := ts, host := rest } r = readReg s r := by
  cases r <;> rfl

/-- A read of word `k` answers the register there. -/
theorem step_read {s : State} {ts : List Turn} {rest : List HostOp} {k : Nat} (ha : s.agenda = .host :: ts)
    (hk : k < 0x1000) (hh : s.host = .read (Spec.regAddr s k) .word :: rest) :
    step s = .next { s with agenda := ts, host := rest, reads := s.reads ++ [readReg s (regAt k)] } := by
  rw [step_host ha hh, hostAction, ← readReg_surroundings s ts rest]
  exact access_word (s := { s with agenda := ts, host := rest }) hk _

/-- A wait on word `k` polls the register there. -/
theorem step_poll {s : State} {ts : List Turn} {rest : List HostOp} {k : Nat} {mask value : Word}
    (ha : s.agenda = .host :: ts) (hk : k < 0x1000) (hh : s.host = .poll (Spec.regAddr s k) mask value :: rest) :
    step s = .next (pollAgain (.poll (Spec.regAddr s k) mask value) mask value (readReg s (regAt k))
      { s with agenda := ts, host := rest }) := by
  rw [step_host ha hh, hostAction, ← readReg_surroundings s ts rest]
  exact access_word (s := { s with agenda := ts, host := rest }) hk _

/-- Settles O8: word 5 is CMD, and its write is the acceptance or the overrun. -/
theorem cmdWriteLatchesOrOverruns : Obligations.CmdWriteLatchesOrOverruns :=
  fun _ _ _ _ ha hh => step_write ha (by decide) hh

/-- Settles O9: words 3, 4, 7 and 8 are the four registers. -/
theorem hostWritesReachTheirRegisters : Obligations.HostWritesReachTheirRegisters :=
  fun _ _ _ _ ha =>
    ⟨step_write ha (by decide), step_write ha (by decide), step_write ha (by decide), step_write ha (by decide)⟩

/-- Settles O10: only the writable registers take a write, reads are answered, and the empty offsets read 0. -/
theorem accessRulesOfTheRegisterMap : Obligations.AccessRulesOfTheRegisterMap := by
  intro s ts rest v k ha hk
  refine ⟨fun hh h3 h4 h5 h7 h8 => ?_, step_read ha hk, readReg_regAt_eq_zero hk⟩
  have hreadOnly : k ∉ [3, 4, 5, 7, 8] := by simp [h3, h4, h5, h7, h8]
  rw [step_write ha hk hh, writeReg_of_not_writable (regAt_not_writable hreadOnly)]

/-- Settles O12: the poll puts itself back before the rest of the program until its value is there. -/
theorem waitReadsUntilTheValueIsThere : Obligations.WaitReadsUntilTheValueIsThere := by
  intro s ts rest mask value k ha hk hh
  rw [step_poll ha hk hh, pollAgain, hh]
  split <;> rfl

/-- An address lies in a bound region exactly when some bound slot's region holds it. -/
theorem inBoundRegion_iff (s : State) (x : Nat) :
    inBoundRegion s x = true ↔ ∃ i : Fin 5, (s.slot i).bound = true ∧ (s.slot i).base.toNat ≤ x ∧
      x < (s.slot i).base.toNat + (s.slot i).len.toNat := by
  simp only [inBoundRegion, Vector.any_eq_true, Slot.covers, Bool.and_eq_true, decide_eq_true_eq, and_assoc, State.slot,
    Fin.exists_iff]

/-- Settles O13: outside every bound region the store is one write of sample memory in canonical form. -/
theorem sampleStoreWritesItsByteOnly : Obligations.SampleStoreWritesItsByteOnly := by
  intro s ts rest addr v ha hh
  have hregion : inBoundRegion { s with agenda := ts, host := rest } addr.toNat = inBoundRegion s addr.toNat := rfl
  rw [step_host ha hh, hostAction, hregion]
  refine ⟨fun houtside hmem => ?store, fun hinside => ?refused⟩
  case store =>
    have hnone : ¬ inBoundRegion s addr.toNat = true := by
      rw [inBoundRegion_iff]
      rintro ⟨i, hb, hlo, hhi⟩
      obtain h | h := houtside i hb <;> omega
    rw [if_neg hnone]
    exact ⟨_, rfl, putCell_wf s.mem addr.toNat v hmem addr.isLt, fun x => cellAt_putCell s.mem addr.toNat x v hmem⟩
  case refused => rw [if_pos ((inBoundRegion_iff s addr.toNat).mpr hinside)]

/-! ## The DMA -/

/-- A turn of a running DMA transmits one frame (R251). -/
theorem step_dma {s : State} {ts : List Turn} (ha : s.agenda = .dma :: ts) (hrun : s.dma.run = true)
    (hwait : s.dma.wait = false) : step s = .next (transmit { s with agenda := ts }) := by
  have hen : dmaEnabled { s with agenda := ts } = true := by simp [dmaEnabled, hrun, hwait]
  rw [step_agenda ha, takeTurn, dmaStep, if_pos hen]

/-- Settles O15: the two branches of the transmission. -/
theorem dmaStepEmitsOneFrame : Obligations.DmaStepEmitsOneFrame := by
  intro s ts ha hrun hwait
  rw [step_dma ha hrun hwait]
  refine ⟨fun h => ?next, fun h => ?last⟩
  case next => exact congrArg _ (if_neg h.ne)
  case last => exact congrArg _ (if_pos h)

theorem txBuf_length {s : State} (h : s.BuffersInv) (x : Buf) : (s.txBuf x).length = nFrames s.build := by
  cases x with
  | a => exact h.1
  | b => exact h.2.1

/-- The frames from word `k` on, one by one. -/
theorem getD_cons_drop {ws : List Word} {k : Nat} (h : k < ws.length) : ws.getD k 0 :: ws.drop (k + 1) = ws.drop k := by
  rw [List.getD_eq_getElem _ _ h, List.drop_eq_getElem_cons h]

/-- The state after a frame that is not the last of its buffer (R251). -/
def frameSent (s : State) (ts : List Turn) : State :=
  { s with
    agenda := ts
    tx := s.tx ++ [(s.txBuf s.dma.ptr).getD s.dma.idx.toNat 0]
    dma := { s.dma with idx := s.dma.idx + 1 } }

/-- From word IDX of a buffer, with `n + 1` words left, that many DMA turns emit those words in order and end the buffer. -/
theorem runSteps_dma {n : Nat} {s : State} {ts : List Turn} (hbuf : (s.txBuf s.dma.ptr).length = nFrames s.build)
    (hidx : s.dma.idx.toNat + (n + 1) = nFrames s.build) (ha : s.agenda = List.replicate (n + 1) .dma ++ ts)
    (hrun : s.dma.run = true) (hwait : s.dma.wait = false) :
    runSteps (n + 1) s = .next { s with
      agenda := ts
      tx := s.tx ++ (s.txBuf s.dma.ptr).drop s.dma.idx.toNat
      dma := { s.dma with idx := 0, wait := true }
      evt := true
      irqStatus := s.irqStatus ||| 0b0001#4 } := by
  induction n generalizing s with
  | zero =>
    have hwords := getD_cons_drop (ws := s.txBuf s.dma.ptr) (k := s.dma.idx.toNat) (by omega)
    have hend : (s.txBuf s.dma.ptr).drop (s.dma.idx.toNat + 1) = [] := List.drop_eq_nil_of_le (by omega)
    rw [runSteps, (dmaStepEmitsOneFrame s ts ha hrun hwait).2 hidx, ← hwords, hend]
    rfl
  | succ n ih =>
    have hwords := getD_cons_drop (ws := s.txBuf s.dma.ptr) (k := s.dma.idx.toNat) (by omega)
    have hstep : step s = .next (frameSent s (List.replicate (n + 1) .dma ++ ts)) :=
      (dmaStepEmitsOneFrame s _ ha hrun hwait).1 (by omega)
    have hsucc := idx_succ_toNat (s := s) (by omega)
    have hrest := ih (s := frameSent s (List.replicate (n + 1) .dma ++ ts)) hbuf
      (by simp only [frameSent, hsucc]; omega) rfl hrun hwait
    rw [runSteps, hstep]
    refine hrest.trans ?_
    simp only [frameSent, hsucc, List.append_assoc, List.singleton_append, ← hwords]
    rfl

/-- Settles O16: from frame 0 the words left are the whole buffer. -/
theorem dmaDrainsItsBufferInOrder : Obligations.DmaDrainsItsBufferInOrder := by
  intro s ts hbufs ha hrun hwait hidx
  have hzero : s.dma.idx.toNat = 0 := by rw [hidx]; rfl
  have hdrain := runSteps_dma (n := s.build.lastFrame.val) (ts := ts) (txBuf_length hbufs s.dma.ptr)
    (by rw [hzero, Nat.zero_add]; rfl) ha hrun hwait
  rw [hzero, List.drop_zero] at hdrain
  exact hdrain

end Sys2Proof.Machine
end

section
/-! What the registers read as (spec/10_state.md R33 to R62, spec/70_reset_and_hazards.md R300): the bits of the words that
pack several fields, and the values right after reset. -/

namespace Sys2Proof.Machine

/-! ## One-bit fields -/

@[simp] theorem bit_getLsbD_zero (f : Bool) : (bit f).getLsbD 0 = f := by cases f <;> rfl

@[simp] theorem Buf.bit_getLsbD_zero (x : Buf) : x.bit.getLsbD 0 = decide (x = .b) := by cases x <;> rfl

@[simp] theorem RateMode.bit_getLsbD_zero (r : RateMode) : r.bit.getLsbD 0 = decide (r = .hz44100) := by cases r <;> rfl

/-! ## STATUS and SFLAGS -/

/-- The one-bit fields of STATUS (R38). -/
theorem statusWord_bits (s : State) :
    s.statusWord.getLsbD 2 = decide (s.sel = .b) ∧ s.statusWord.getLsbD 3 = s.evt ∧ s.statusWord.getLsbD 4 = s.busy ∧
    s.statusWord.getLsbD 5 = s.dma.run ∧ s.statusWord.getLsbD 6 = s.dma.wait ∧
    s.statusWord.getLsbD 7 = decide (s.rateMode = .hz44100) ∧ s.statusWord.getLsbD 11 = decide (s.dma.ptr = .b) := by
  refine ⟨?_, ?_, ?_, ?_, ?_, ?_, ?_⟩
  all_goals
    rw [State.statusWord, BitVec.getLsbD_append]
    simp only [BitVec.getLsbD_append, Nat.reduceLT, Nat.reduceSub, Nat.lt_irrefl, if_true, if_false, Nat.one_pos,
      bit_getLsbD_zero, Buf.bit_getLsbD_zero, RateMode.bit_getLsbD_zero]

/-- The wider fields of STATUS and its reserved bits (R38). -/
theorem statusWord_fields (s : State) :
    s.statusWord.extractLsb' 0 2 = s.mode.code ∧ s.statusWord.extractLsb' 8 3 = s.lastMix ∧
    s.statusWord.extractLsb' 12 20 = 0 := by
  refine ⟨BitVec.extractLsb'_append_eq_right, ?_, ?_⟩
  all_goals
    rw [State.statusWord, BitVec.extractLsb'_append_eq_of_le (by decide)]
    simp only [BitVec.extractLsb'_append_eq_of_le, BitVec.extractLsb'_append_eq_of_add_le, Nat.reduceLeDiff, Nat.reduceSub,
      Nat.le_refl, BitVec.extractLsb'_eq_self]
  rfl

/-- The one-bit fields of SFLAGS (R52). -/
theorem flagsWord_bits (c : Slot) :
    c.flagsWord.getLsbD 0 = c.bound ∧ c.flagsWord.getLsbD 1 = c.paused ∧ c.flagsWord.getLsbD 2 = c.loop ∧
    c.flagsWord.getLsbD 3 = c.dps ∧ c.flagsWord.getLsbD 4 = c.dpe ∧ c.flagsWord.getLsbD 5 = c.ended ∧
    c.flagsWord.getLsbD 6 = c.ds ∧ c.flagsWord.getLsbD 7 = c.first := by
  refine ⟨?_, ?_, ?_, ?_, ?_, ?_, ?_, ?_⟩
  all_goals
    rw [Slot.flagsWord, BitVec.getLsbD_append]
    simp only [BitVec.getLsbD_append, Nat.reduceLT, Nat.reduceSub, Nat.lt_irrefl, if_true, if_false, Nat.one_pos,
      bit_getLsbD_zero]

/-- MODE and the reserved bits of SFLAGS (R52). -/
theorem flagsWord_fields (c : Slot) :
    c.flagsWord.extractLsb' 8 2 = c.modeCode ∧ c.flagsWord.extractLsb' 10 22 = 0 := by
  refine ⟨?_, ?_⟩
  all_goals
    rw [Slot.flagsWord, BitVec.extractLsb'_append_eq_of_le (by decide)]
    simp only [BitVec.extractLsb'_append_eq_of_le, BitVec.extractLsb'_append_eq_of_add_le, Nat.reduceLeDiff, Nat.reduceSub,
      Nat.le_refl, BitVec.extractLsb'_eq_self]
  rfl

theorem Mode.code_eq (x : Mode) :
    x.code = match x with
      | .idle => 0#2
      | .priming => 1#2
      | .streaming => 2#2 := by
  cases x <;> rfl

/-- ENDED as R59 derives it. -/
theorem ended_eq (c : Slot) : c.ended = (c.bound && decide (c.len.toNat ≤ c.pos.toNat) && !c.loop) := by
  simp only [Slot.ended, Slot.rem, Nat.sub_eq_zero_iff_le]

/-- MODE as R52 derives it. -/
theorem modeCode_eq (c : Slot) : c.modeCode = if c.rate = 0 then 0 else if 0 < c.rate.toInt then 1 else 2 := by
  have hzero : c.rate.toInt = 0 ↔ c.rate = 0 := BitVec.toInt_inj (y := 0)
  simp only [Slot.modeCode, hzero]

/-- Settles O54: the two packed words hold their fields, and ENDED and MODE are the derived values. -/
theorem statusAndFlagsWordsHoldTheirFields : Obligations.StatusAndFlagsWordsHoldTheirFields := by
  refine ⟨fun s => ?status, fun s i => ?flags⟩
  case status =>
    obtain ⟨hsel, hevt, hbusy, hrun, hwait, hrate, hptr⟩ := statusWord_bits s
    obtain ⟨hmode, hlast, hreserved⟩ := statusWord_fields s
    exact ⟨hmode.trans (Mode.code_eq s.mode), hsel, hevt, hbusy, hrun, hwait, hrate, hlast, hptr, hreserved⟩
  case flags =>
    obtain ⟨hbound, hpaused, hloop, hdps, hdpe, hended, hds, hfirst⟩ := flagsWord_bits (s.slot i)
    obtain ⟨hmode, hreserved⟩ := flagsWord_fields (s.slot i)
    exact ⟨hbound, hpaused, hloop, hdps, hdpe, hended.trans (ended_eq _), hds, hfirst, hmode.trans (modeCode_eq _),
      hreserved⟩

/-! ## The other packed words -/

/-- The fields of PARAMS (R37). -/
theorem paramsWord_fields (b : Build) :
    (paramsWord b).extractLsb' 0 16 = BitVec.ofNat 16 (nFrames b) ∧ (paramsWord b).extractLsb' 16 4 = 5#4 ∧
    (paramsWord b).getLsbD 20 = b.primeStaging ∧ (paramsWord b).getLsbD 21 = b.clipSym ∧
    (paramsWord b).extractLsb' 22 10 = 0 := by
  refine ⟨BitVec.extractLsb'_append_eq_right, ?_, ?_, ?_, ?_⟩
  case refine_2 | refine_3 =>
    rw [paramsWord, BitVec.getLsbD_append]
    simp only [BitVec.getLsbD_append, Nat.reduceLT, Nat.reduceSub, Nat.lt_irrefl, if_true, if_false, Nat.one_pos,
      bit_getLsbD_zero]
  all_goals
    rw [paramsWord, BitVec.extractLsb'_append_eq_of_le (by decide)]
    simp only [BitVec.extractLsb'_append_eq_of_le, BitVec.extractLsb'_append_eq_of_add_le, Nat.reduceLeDiff, Nat.reduceSub,
      Nat.le_refl, BitVec.extractLsb'_eq_self]
  rfl

/-- The fields of DEPOP_PARAMS (R44). -/
theorem depopParamsWord_fields (b : Build) :
    (depopParamsWord b).extractLsb' 0 16 = b.depopStartN ∧
    (depopParamsWord b).extractLsb' 16 16 = BitVec.ofNat 16 (depopEndBytes b) :=
  ⟨BitVec.extractLsb'_append_eq_right, BitVec.extractLsb'_append_eq_left⟩

/-- The fields of ERR (R46). -/
theorem errWord_fields (e : ErrReg) :
    e.word.extractLsb' 0 4 = e.code ∧ e.word.extractLsb' 4 4 = 0 ∧ e.word.extractLsb' 8 8 = e.opc ∧
    e.word.extractLsb' 16 3 = e.slot ∧ e.word.extractLsb' 19 13 = 0 := by
  refine ⟨BitVec.extractLsb'_append_eq_right, ?_, ?_, ?_, ?_⟩
  all_goals
    rw [ErrReg.word, BitVec.extractLsb'_append_eq_of_le (by decide)]
    simp only [BitVec.extractLsb'_append_eq_of_le, BitVec.extractLsb'_append_eq_of_add_le, Nat.reduceLeDiff, Nat.reduceSub,
      Nat.le_refl, BitVec.extractLsb'_eq_self]
  all_goals rfl

/-- SREM is a number of bytes of the region, so the word holds it whole (R58). -/
theorem rem_toNat (c : Slot) : (BitVec.ofNat 32 c.rem).toNat = c.len.toNat - c.pos.toNat := by
  have hlen := c.len.isLt
  rw [BitVec.toNat_ofNat, Slot.rem]
  omega

/-- Settles O55: a narrower register is zero-extended, LAST sign-extended, and the packed words hold their fields. -/
theorem registerWordsHoldTheirFields : Obligations.RegisterWordsHoldTheirFields := by
  refine ⟨fun s => ?engine, fun s i => ?slot, fun s k => ⟨rfl, rfl, rfl⟩⟩
  case engine =>
    obtain ⟨hframes, hslots, hprime, hclip, hreserved⟩ := paramsWord_fields s.build
    obtain ⟨hstart, hend⟩ := depopParamsWord_fields s.build
    obtain ⟨hcode, herr4, hopc, hslot, herr19⟩ := errWord_fields s.err
    exact ⟨rfl, rfl, rfl, rfl, rfl, BitVec.toNat_setWidth_of_le (by decide), BitVec.toNat_setWidth_of_le (by decide),
      BitVec.toNat_setWidth_of_le (by decide), BitVec.toNat_setWidth_of_le (by decide), hframes, hslots, hprime, hclip,
      hreserved, hstart, hend, hcode, herr4, hopc, hslot, herr19⟩
  case slot =>
    exact ⟨rfl, rfl, rfl, BitVec.toNat_setWidth_of_le (by decide), rfl, rfl, rfl, BitVec.toInt_signExtend_of_le (by decide),
      rem_toNat (s.slot i)⟩

/-! ## After reset -/

/-- An appended word as a number. -/
theorem toNat_append_eq {v w : Nat} (hi : BitVec v) (lo : BitVec w) :
    (hi ++ lo).toNat = hi.toNat * 2 ^ w + lo.toNat := by
  rw [BitVec.toNat_append, ← Nat.shiftLeft_add_eq_or_of_lt lo.isLt, Nat.shiftLeft_eq]

theorem bit_toNat (f : Bool) : (bit f).toNat = f.toNat := by cases f <;> rfl

/-- PARAMS as a number (R37). -/
theorem paramsWord_toNat (b : Build) :
    (paramsWord b).toNat =
      (b.lastFrame.val + 1) + 5 * 2 ^ 16 + b.primeStaging.toNat * 2 ^ 20 + b.clipSym.toNat * 2 ^ 21 := by
  have hframes := b.lastFrame.isLt
  rw [paramsWord, toNat_append_eq]
  simp only [toNat_append_eq, bit_toNat, nFrames, BitVec.toNat_ofNat]
  omega

/-- DEPOP_PARAMS as a number (R44). -/
theorem depopParamsWord_toNat (b : Build) :
    (depopParamsWord b).toNat = b.depopStartN.toNat + (b.depopEndPred.val + 1) * 2 ^ 16 := by
  have hend := b.depopEndPred.isLt
  rw [depopParamsWord, toNat_append_eq, depopEndBytes, BitVec.toNat_ofNat]
  omega

/-- Settles O56: the reset state's fields are literals, but for the two words of parameters. -/
theorem resetRegistersReadAsSpecified : Obligations.ResetRegistersReadAsSpecified := by
  intro b d
  refine ⟨rfl, rfl, ?zeros, paramsWord_toNat b, depopParamsWord_toNat b, fun i => ?slots,
    decide_eq_false (not_not.mpr BitVec.zero_and), rfl, rfl⟩
  case zeros =>
    simp only [List.forall_mem_cons]
    have hstatus : (State.resetWith b d).statusWord = 0 := by
      simp only [State.statusWord, State.resetWith]
      decide
    have herr : ErrReg.word { code := 0, opc := 0, slot := 0 } = 0 := by decide
    exact ⟨hstatus, rfl, rfl, rfl, rfl, rfl, rfl, herr, rfl, nofun⟩
  case slots =>
    rw [readReg, readReg, State.slot_resetWith]
    exact ⟨rfl, rfl, rfl⟩

end Sys2Proof.Machine
end

section
/-! When SEQ is stuck (spec/20_memory.md R82, spec/43_engine.md R220, spec/60_exceptions.md R276): which reads are admitted,
which steps have no answer for want of a byte, and that no agent faults while every bound region can be read. -/

namespace Sys2Proof.Machine

/-! ## Reads that are not admitted -/

theorem admitted_iff (b : Build) (x : Nat) : admitted b x = true ↔ Spec.Admitted b x := by
  simp only [admitted, Spec.Admitted, Bool.and_eq_true, decide_eq_true_eq, List.any_eq_true]

theorem memRead_eq_ite (b : Build) (m : List Host.Cell) (x : Nat) :
    memRead b m x = if Spec.Admitted b x then some (cellAt m x) else none := by
  simp only [memRead, admitted_iff]

theorem memRead_eq_none_iff {b : Build} {m : List Host.Cell} {x : Nat} : memRead b m x = none ↔ ¬ Spec.Admitted b x := by
  rw [memRead_eq_ite]
  split
  · next h => exact iff_of_false nofun (not_not.mpr h)
  · next h => exact iff_of_true rfl h

/-- A raw step has no answer exactly where a sample is left and a byte of it is not admitted. -/
theorem rawStep_eq_none_iff_stuck {b : Build} {m : List Host.Cell} {c : Slot} :
    rawStep b m c = none ↔ Spec.NextRawStepStuck b c := by
  have hleft : c.rewindIfDone.exhausted = false ↔ Spec.readPos c + 2 ≤ c.len.toNat := by
    rw [← Bool.not_eq_true, rewindIfDone_exhausted_iff, Nat.not_lt]
  rw [rawStep_eq_none_iff, readSample_eq_none_iff, memRead_eq_none_iff, memRead_eq_none_iff, hleft,
    (rewindIfDone_frame c).base, rewindIfDone_pos_toNat, ← not_and_or]

/-- A slot whose next raw step is stuck has bytes left, or loops: it has not ended. -/
theorem ended_eq_false_of_stuck {b : Build} {c : Slot} (h : Spec.NextRawStepStuck b c) : c.ended = false := by
  refine Bool.eq_false_iff.mpr fun he => ?_
  obtain ⟨-, hpos, hloop⟩ := (ended_iff c).mp he
  have hread : Spec.readPos c = c.pos.toNat := if_neg fun hrewinds => absurd (hrewinds.2.symm.trans hloop) (by decide)
  have hleft := h.1
  omega

/-! ## Steps without an answer -/

/-- A skip that comes to a stuck raw step has no answer. -/
theorem skipN_eq_none {b : Build} {m : List Host.Cell} {j n : Nat} {c d : Slot} (hj : j < n)
    (hrun : skipN b m j c = some (j, d)) (hstuck : rawStep b m d = none) : skipN b m n c = none := by
  induction j generalizing n c with
  | zero =>
    cases hrun
    obtain ⟨n, rfl⟩ := Nat.exists_eq_succ_of_ne_zero hj.ne'
    simp only [skipN, hstuck]
  | succ j ih =>
    obtain ⟨n, rfl⟩ := Nat.exists_eq_succ_of_ne_zero (Nat.ne_zero_of_lt hj)
    obtain ⟨x, c1, hraw, hrest⟩ := skipN_succ_eq_succ_iff.mp hrun
    simp only [skipN, hraw, ih (Nat.lt_of_succ_lt_succ hj) hrest]

/-- A skip step has no answer where the first of its raw steps has none, whether it is skipped or kept. -/
theorem skipStep_eq_none {b : Build} {m : List Host.Cell} {c : Slot} (h : rawStep b m (skipStart c) = none) :
    skipStep b m c = none := by
  cases hs : skipStep b m c with
  | none => rfl
  | some r =>
    obtain ⟨k, c1, hskip, hraw⟩ := skipStep_cases hs
    cases hn : (c.acc.toNat + c.rate.toInt.toNat) / 0x10000 with
    | zero =>
      rw [hn] at hskip
      cases hskip
      rw [h] at hraw
      cases hraw
    | succ n =>
      rw [skipN_eq_none (j := 0) (by omega) rfl h] at hskip
      cases hskip

/-- Below 1.0 a repeat step is a raw step (R185). -/
theorem repeatStep_eq_none {b : Build} {m : List Host.Cell} {c : Slot} (hrate : c.rate.toInt < 0)
    (hone : c.acc.toNat + c.rate.toInt.natAbs < 65536)
    (h : rawStep b m { c with acc := BitVec.ofNat 32 (repeatAcc c) } = none) : repeatStep b m c = none := by
  have hacc := repeatAcc_eq hrate
  rw [repeatStep, if_neg (by omega), h]

/-- A rate step that takes a stuck raw step has no answer; what else it changes of the slot is not where it reads. -/
theorem rateStep_eq_none {b : Build} {m : List Host.Cell} {c : Slot} (htakes : Spec.TakesRawStep c)
    (hstuck : Spec.NextRawStepStuck b c) : rateStep b m c = none := by
  have he := ended_eq_false_of_stuck hstuck
  cases hf : c.first with
  | true =>
    rw [rateStep_of_first he hf]
    exact rawStep_eq_none_iff_stuck.mpr hstuck
  | false =>
    obtain hrate | hrate | hrate := Int.lt_trichotomy c.rate.toInt 0
    · have hone : c.acc.toNat + c.rate.toInt.natAbs < 65536 := by
        obtain hfirst | hnonneg | hone := htakes
        · exact absurd (hfirst.symm.trans hf) (by decide)
        · omega
        · exact hone
      rw [rateStep_of_rate_neg he hf hrate]
      exact repeatStep_eq_none hrate hone (rawStep_eq_none_iff_stuck.mpr hstuck)
    · rw [rateStep_of_rate_zero b m (BitVec.toInt_inj.mp hrate) he]
      exact rawStep_eq_none_iff_stuck.mpr hstuck
    · rw [rateStep_of_rate_pos he hf hrate]
      exact skipStep_eq_none (rawStep_eq_none_iff_stuck.mpr hstuck)

/-- The fills of START and of an active TICK have no answer where an eligible slot's rate step has none. -/
theorem mixFrames_eq_none_of_stuck {s : State} {i : Fin 5} (helig : ¬ Spec.Skipped (s.slot i))
    (htakes : Spec.TakesRawStep (s.slot i)) (hstuck : Spec.NextRawStepStuck s.build (s.slot i)) (last : BitVec 3) :
    mixFrames s.build s.mem s.mvol s.slots last = none := by
  have he : (s.slot i).eligible = true := eq_true_of_ne_false fun hne => helig ((skipped_iff _).mpr hne)
  exact mixFrames_eq_none (k := i) (mixSlot_eq_none he (rateStep_eq_none htakes hstuck))

/-! ## Commands that fault -/

theorem exec_fetch_of_stuck {s : State} {i : Fin 5} (hb : (s.slot i).bound = true) (htakes : Spec.TakesRawStep (s.slot i))
    (hstuck : Spec.NextRawStepStuck s.build (s.slot i)) : exec (.fetch (slotNo i)) s = .fault .sampleReadNotAdmitted := by
  rw [exec, execFetch, onBoundSlot_slotNo hb, rateStep_eq_none htakes hstuck]
  rfl

theorem exec_skip_of_stuck {s : State} {i : Fin 5} {j : Nat} {c : Slot} (hb : (s.slot i).bound = true)
    (hj : j < s.latch.a0.toNat) (hrun : skipN s.build s.mem j (s.slot i) = some (j, c))
    (hstuck : Spec.NextRawStepStuck s.build c) : exec (.skip (slotNo i)) s = .fault .sampleReadNotAdmitted := by
  rw [exec, execSkip, onBoundSlot_slotNo hb, Latch.count,
    skipN_eq_none hj hrun (rawStep_eq_none_iff_stuck.mpr hstuck)]
  rfl

theorem exec_start_of_stuck {s : State} {i : Fin 5} (helig : ¬ Spec.Skipped (s.slot i))
    (htakes : Spec.TakesRawStep (s.slot i)) (hstuck : Spec.NextRawStepStuck s.build (s.slot i)) (hm : s.mode = .idle) :
    exec .start s = .fault .sampleReadNotAdmitted := by
  have hfill : mixIntoTx .a { s with mode := .priming } = none := by
    rw [mixIntoTx, mixFrames_eq_none_of_stuck (s := { s with mode := .priming }) helig htakes hstuck]
    rfl
  rw [exec, execStart, if_pos hm, primeBuffers, hfill]
  rfl

theorem exec_tick_of_stuck {s : State} {i : Fin 5} (helig : ¬ Spec.Skipped (s.slot i))
    (htakes : Spec.TakesRawStep (s.slot i)) (hstuck : Spec.NextRawStepStuck s.build (s.slot i))
    (hm : s.mode = .streaming) (he : s.evt = true) : exec .tick s = .fault .sampleReadNotAdmitted := by
  have hfill : mixIntoStage (copyStage (swapBuffers s)) = none := by
    simp only [mixIntoStage, copyStage, State.setTxBuf_build, State.setTxBuf_mem, State.setTxBuf_mvol,
      State.setTxBuf_slots, State.setTxBuf_lastMix]
    rw [mixFrames_eq_none_of_stuck (s := swapBuffers s) helig htakes hstuck]
    rfl
  rw [exec, execTick, if_pos ⟨hm, he⟩, hfill]
  rfl

/-! ## No agent faults while every bound region can be read -/

theorem onSlot_ne_fault {n : BitVec 3} {s : State} {k : Fin 5 → Result} {f : Fault} (h : ∀ i, k i ≠ .fault f) :
    onSlot n s k ≠ .fault f := by
  unfold onSlot
  split
  · exact h _
  · nofun

theorem onBoundSlot_ne_fault {n : BitVec 3} {s : State} {k : Fin 5 → Slot → Result} {f : Fault}
    (h : ∀ i, (s.slot i).bound = true → k i (s.slot i) ≠ .fault f) : onBoundSlot n s k ≠ .fault f := by
  refine onSlot_ne_fault fun i => ?_
  split
  · next hb => exact h i hb
  · nofun

theorem withOperand_ne_fault {α : Type} {o : Option α} {s : State} {k : α → Result} {f : Fault}
    (h : ∀ x, k x ≠ .fault f) : withOperand o s k ≠ .fault f := by
  cases o with
  | none => nofun
  | some x => exact h x

/-- A command faults only for want of a byte (R82). -/
theorem exec_ne_fault {s : State} (hr : s.SlotsReadable) (i : Instr) (f : Fault) : exec i s ≠ .fault f := by
  cases i with
  | nop | stop | clearAll | setMasterVol => nofun
  | start =>
    rw [exec]
    by_cases hm : s.mode = .idle
    · obtain ⟨fa, fb, fc, hp⟩ := primed_of_readable hr.vector
      rw [execStart_of hm hp]
      nofun
    · rw [execStart, if_neg hm]
      nofun
  | tick =>
    rw [exec]
    by_cases hact : s.mode = .streaming ∧ s.evt = true
    · obtain ⟨g, hg⟩ := mixLoop_of_readable s.mem s.mvol (nFrames s.build) s.lastMix hr.vector
      rw [execTick_of hact.1 hact.2 hg]
      nofun
    · rw [execTick, if_neg hact]
      nofun
  | setRateMode =>
    rw [exec, execSetRateMode]
    split
    · exact withOperand_ne_fault fun _ => nofun
    · nofun
  | bind =>
    simp only [exec, execBind]
    exact onSlot_ne_fault fun _ => withOperand_ne_fault fun _ => nofun
  | unbind =>
    simp only [exec, execUnbind]
    exact onSlot_ne_fault fun _ => nofun
  | setVol | pause | unpause | seekStart | setRate =>
    simp only [exec, execSetVol, execPause, execUnpause, execSeekStart, execSetRate]
    exact onBoundSlot_ne_fault fun _ _ => nofun
  | setLoop | setDepop | setDownsample =>
    simp only [exec, execSetLoop, execSetDepop, execSetDownsample]
    exact onBoundSlot_ne_fault fun _ _ => withOperand_ne_fault fun _ => nofun
  | fetch =>
    simp only [exec, execFetch]
    refine onBoundSlot_ne_fault fun k hb => ?_
    obtain ⟨r, c, h⟩ := rateStep_of_readable s.mem (hr k hb).2
    rw [h]
    nofun
  | skip =>
    simp only [exec, execSkip]
    refine onBoundSlot_ne_fault fun k hb => ?_
    obtain ⟨r, c, h⟩ := skipN_of_readable s.mem s.latch.count (hr k hb).2
    rw [h]
    nofun

theorem access_ne_fault {s : State} {addr : Word} {w : Width} {k : Reg → State} {f : Fault} :
    access s addr w k ≠ .fault f := by
  unfold access
  split_ifs <;> nofun

/-- The host is answered or refused, and never faults. -/
theorem hostStep_ne_fault (s : State) (f : Fault) : hostStep s ≠ .fault f := by
  unfold hostStep
  split
  · nofun
  · next op rest _ =>
    cases op with
    | read | write | poll =>
      rw [hostAction]
      exact access_ne_fault
    | store addr v =>
      rw [hostAction]
      split <;> nofun

theorem seqStep_ne_fault {s : State} (hr : s.SlotsReadable) (f : Fault) : seqStep s ≠ .fault f := by
  unfold seqStep
  split
  · split
    · exact exec_ne_fault hr _ f
    · nofun
  · nofun

theorem takeTurn_ne_fault {s : State} (hr : s.SlotsReadable) (x : Turn) (f : Fault) : takeTurn x s ≠ .fault f := by
  cases x with
  | host => exact hostStep_ne_fault s f
  | seq => exact seqStep_ne_fault hr f
  | dma | reset => nofun

theorem step_ne_fault {s : State} (hr : s.SlotsReadable) (f : Fault) : step s ≠ .fault f := by
  obtain ⟨ts, d, hpick⟩ := pickTurn_cases s
  unfold step
  split
  · nofun
  · next x s1 hx =>
    obtain rfl : s1 = { s with agenda := ts, draws := d } := by rw [← hpick, hx]
    exact takeTurn_ne_fault (s := { s with agenda := ts, draws := d }) hr x f

/-- Settles O60: a stuck raw step leaves the steps, the fills and the commands that need it without an answer, and a readable
region has none. -/
theorem readableSlotsNeverStickTheSequencer : Obligations.ReadableSlotsNeverStickTheSequencer := by
  refine ⟨fun s _ hr => step_ne_fault hr, memRead_eq_ite, fun b m c => rawStep_eq_none_iff_stuck, fun s i hb =>
    ⟨exec_fetch_of_stuck hb, fun j hj c hrun hstuck => exec_skip_of_stuck hb hj hrun hstuck⟩, fun s i helig htakes hstuck =>
    ⟨exec_start_of_stuck helig htakes hstuck, exec_tick_of_stuck helig htakes hstuck⟩⟩

end Sys2Proof.Machine
end
